-- ==== Sys2Proof/Word.lean ====
section
/-! DEFINITION. The three word types of the data formats (spec/00_scope.md R5; spec/30_encoding.md R86 to R88). -/

namespace Sys2Proof

/-- An unsigned channel value of a pixel, `CHAN_BITS = 8` (R5, R11). -/
abbrev Byte := BitVec 8

/-- A 16-bit sample pattern, `SAMPLE_BITS = 16` (R5, R8). -/
abbrev Sample := BitVec 16

/-- A 2-bit payload value, the content of one carrier slot, `SLOT_BITS = 2` (R5). -/
abbrev Digit := BitVec 2

/-- The 8-bit command word `CMD8` (R81). -/
abbrev CommandWord := BitVec 8

end Sys2Proof
end

