-- ==== Sys2Proof/Config.lean ====
section
/-! DEFINITION. What an implementation fixes (spec/00_scope.md R7) and the free values of the places the spec
leaves open (spec/93_implementation_defined.md U2, U7). -/

namespace Sys2Proof

/-- The two packing densities, selected by the bit M of the command word (R2, R6, R81). -/
inductive Mode where
  /-- 8 slots a sample, lossless. -/
  | exact16
  /-- 6 slots a sample, the four low bits dropped. -/
  | packed12
deriving DecidableEq, Repr

/-- `DIM_BITS`, at R7's default. DESIGN CHOICE (log entry 1). -/
abbrev Config.dimBits : Nat := 16

/-- `LEN_BITS`, at R7's default; R7 asks at least `2 × DIM_BITS`. DESIGN CHOICE (log entry 1). -/
abbrev Config.lenBits : Nat := 32

/-- `PIX_ADDR_BITS`, at R7's default; R7 asks at least `2 × DIM_BITS + 2`. DESIGN CHOICE (log entry 1). -/
abbrev Config.pixAddrBits : Nat := 34

/-- Free value: what an element of PIX_IN that nothing has written reads as, by reset epoch and index (U7,
`any value`; R66 says it holds no value). Nothing constrains it (log entry 4). -/
opaque Config.unwrittenPixIn : Nat → Nat → Byte

/-- Free value: what an element of SMP_IN that nothing has written reads as (U7; log entry 4). -/
opaque Config.unwrittenSmpIn : Nat → Nat → Sample

/-- Free value: what an element of PIX_OUT that nothing has written reads as (U2; log entry 4). -/
opaque Config.unwrittenPixOut : Nat → Nat → Byte

/-- Free value: what an element of SMP_OUT that nothing has written reads as (U2; log entry 4). -/
opaque Config.unwrittenSmpOut : Nat → Nat → Sample

end Sys2Proof
end

