-- ==== Sys2Proof/Syntax.lean ====
section
/-! DEFINITION. The six commands of LSBPACK (spec/30_encoding.md R80; spec/opcode_table.json). A command word has no
register field and no immediate (R81), so no constructor has an argument. -/

namespace Sys2Proof

/-- One constructor per row of the opcode table. -/
inductive Instr where
  /-- PLAN.X16, word 0x00 (R112). -/
  | planX16
  /-- ENC.X16, word 0x01 (R138). -/
  | encX16
  /-- DEC.X16, word 0x02 (R167). -/
  | decX16
  /-- PLAN.P12, word 0x04 (R113). -/
  | planP12
  /-- ENC.P12, word 0x05 (R139). -/
  | encP12
  /-- DEC.P12, word 0x06 (R168). -/
  | decP12
deriving DecidableEq, Repr

end Sys2Proof
end

