-- ==== Sys2Proof/WellFormed.lean ====
section
/-! DEFINITION. What the decoder checks of a command word (spec/30_encoding.md R81, R84), and the well-formed commands:
all six, since a command has no field that could be out of range (R81). -/

namespace Sys2Proof

/-- A command word is well formed when RSV is 00000 and OP is not 11; the other 250 words are reserved (R81, R84). -/
abbrev CommandWord.WellFormed (c : CommandWord) : Prop :=
  c.extractLsb' 3 5 = 0#5 ∧ c.extractLsb' 0 2 ≠ 0b11#2

/-- Every command is well formed: its operands are registers and buffers, none stands in the word (R81). -/
abbrev Instr.WellFormed (_ : Instr) : Prop := True

end Sys2Proof
end

