-- ==== Sys2Proof/Decode.lean ====
section
/-! DEFINITION. The decoder of the command word, total on the 256 words and refusing the reserved ones by name, and the
encoder (spec/30_encoding.md R81, R82, R84). -/

namespace Sys2Proof

/-- Why a command word is reserved (R84). Both raise `IllegalCommand` (R183), which is no stop: safe. -/
inductive DecodeError where
  /-- RSV, bits 7:3, is not 00000. -/
  | reservedBits
  /-- RSV is 00000 and OP, bits 1:0, is 11. -/
  | reservedOperation
deriving DecidableEq, Repr

/-- The command a word stands for, read field by field: RSV 7:3, M bit 2, OP 1:0 (R81). -/
def decode (c : CommandWord) : Except DecodeError Instr :=
  if c.extractLsb' 3 5 ≠ 0#5 then .error .reservedBits
  else
    match c.getLsbD 2, (c.extractLsb' 0 2).toNat with
    | false, 0 => .ok .planX16
    | false, 1 => .ok .encX16
    | false, 2 => .ok .decX16
    | true, 0 => .ok .planP12
    | true, 1 => .ok .encP12
    | true, 2 => .ok .decP12
    | _, _ => .error .reservedOperation

/-- The word of a command, from the opcode map (R82). -/
def encode : Instr → CommandWord
  | .planX16 => 0x00#8
  | .encX16 => 0x01#8
  | .decX16 => 0x02#8
  | .planP12 => 0x04#8
  | .encP12 => 0x05#8
  | .decP12 => 0x06#8

/-- The host's window on the decoder: the command read from a table row of `nbits` bits with value `w`. Every command
word has 8 bits (R85), so a row of any other width is refused. -/
def decodeTableWord (nbits w : Nat) : Option Instr :=
  if nbits = 8 ∧ w < 256 then
    match decode (BitVec.ofNat 8 w) with
    | .ok i => some i
    | .error _ => none
  else none

end Sys2Proof
end

