-- ==== Sys2Proof/Machine/State.lean ====
section
/-! DEFINITION. The state of LSBPACK as plain data (spec/10_state.md R20, R21; spec/20_memory.md R50), the actions its
host can take (spec/30_encoding.md R95; spec/10_state.md R35), and the machine right after reset (R36). -/

namespace Sys2Proof.Machine

/-- A buffer memory: (index, element) pairs, indices strictly rising (`Memory.wf`). An unlisted element holds no value
(R36, R66). For `w = 8` this is a list of `Host.Cell`; sample elements are indivisible 16-bit values (R51, R52). -/
abbrev Memory (w : Nat) := List (Nat × BitVec w)

/-- The eleven registers, in the order of their numbers 0 to 10 (R21). -/
inductive Reg where
  | height | width | channels | nsamples | theight | twidth | capacity | nslots | cmd | status | errcode
deriving DecidableEq, Repr

/-- The width of each register (R21, widths of R7). -/
abbrev Reg.bits : Reg → Nat
  | .height => Config.dimBits
  | .width => Config.dimBits
  | .channels => 8
  | .nsamples => Config.lenBits
  | .theight => Config.dimBits
  | .twidth => Config.dimBits
  | .capacity => Config.lenBits
  | .nslots => Config.pixAddrBits
  | .cmd => 8
  | .status => 8
  | .errcode => 8

/-- What the host can do between commands: the pseudo-instructions of R95, a register write or read (R35), and the one
reset (R210). A register write carries a value of the register's own width, so a wider one cannot be expressed (R35). -/
inductive HostAction where
  /-- The one reset (R210). What triggers it is the platform's; here it is an action of the host (log entry 5). -/
  | reset
  /-- SET: write a register. A write to CMD starts a command (R32). -/
  | set (r : Reg) (v : BitVec r.bits)
  /-- GET: read a register. -/
  | get (r : Reg)
  /-- FILL PIX_IN from an index on. -/
  | fillPixIn (i : BitVec Config.pixAddrBits) (vs : List Byte)
  /-- FILL SMP_IN from an index on. -/
  | fillSmpIn (i : BitVec Config.lenBits) (vs : List Sample)
  /-- DUMP consecutive elements of PIX_OUT. -/
  | dumpPixOut (i : BitVec Config.pixAddrBits) (count : Nat)
  /-- DUMP consecutive elements of SMP_OUT. -/
  | dumpSmpOut (i : BitVec Config.lenBits) (count : Nat)
  /-- COPY PIX_OUT to PIX_IN: this many elements, both from index 0. -/
  | copyPixOut (count : Nat)
deriving DecidableEq, Repr

/-- What a host read gives back. -/
inductive HostReply where
  /-- GET: the register and its value. -/
  | register (r : Reg) (v : BitVec r.bits)
  /-- DUMP of PIX_OUT. -/
  | bytes (vs : List Byte)
  /-- DUMP of SMP_OUT. -/
  | samples (vs : List Sample)
deriving DecidableEq, Repr

/-- The errors a command can end in (R180). None stops the machine: each is reported through STATUS and ERRCODE (R186). -/
inductive CommandError where
  /-- ENC with CHANNELS neither 1 nor 3 (R181). -/
  | unsupportedCarrierShape
  /-- DEC with CHANNELS other than 3, or a zero dimension (R182). -/
  | malformedCarrier
  /-- A reserved command word (R183). -/
  | illegalCommand
  /-- PLAN or ENC with a zero dimension (R184). -/
  | preconditionViolated
deriving DecidableEq, Repr

/-- The machine's state. CMD has no field: the register stores nothing and reads 0 (R32). -/
structure State where
  /-- HEIGHT, register 0 (R22). -/
  height : BitVec Config.dimBits
  /-- WIDTH, register 1 (R22). -/
  width : BitVec Config.dimBits
  /-- CHANNELS, register 2 (R23). -/
  channels : BitVec 8
  /-- NSAMPLES, register 3 (R24). -/
  nsamples : BitVec Config.lenBits
  /-- THEIGHT, register 4 (R25). -/
  theight : BitVec Config.dimBits
  /-- TWIDTH, register 5 (R25). -/
  twidth : BitVec Config.dimBits
  /-- CAPACITY, register 6 (R25). -/
  capacity : BitVec Config.lenBits
  /-- NSLOTS, register 7 (R25). -/
  nslots : BitVec Config.pixAddrBits
  /-- STATUS, register 9: bit 0 DONE, bit 1 ERR (R30). -/
  status : BitVec 8
  /-- ERRCODE, register 10 (R31). -/
  errcode : BitVec 8
  /-- PIX_IN, the carrier presented to ENC or DEC (R50). -/
  pixIn : Memory 8
  /-- SMP_IN, the samples presented to ENC (R50). -/
  smpIn : Memory 16
  /-- PIX_OUT, the carrier ENC produces (R50). -/
  pixOut : Memory 8
  /-- SMP_OUT, the samples DEC produces (R50). -/
  smpOut : Memory 16
  /-- The model's own: host actions not yet performed, oldest first. DESIGN CHOICE (log entry 2). -/
  pending : List HostAction
  /-- The model's own: what the host's last read gave back. DESIGN CHOICE (log entry 3). -/
  reply : Option HostReply
  /-- The model's own: how many resets have happened, which selects the free contents of unwritten elements.
  DESIGN CHOICE (log entries 4, 5). -/
  epoch : Nat
deriving DecidableEq, Repr

/-- Why the machine stops. -/
inductive Fault where
  /-- Raised by a host FILL, DUMP or COPY whose run passes the last index of its space: those elements do not exist
  (R50, R63). No command raises it (R64, R185). Safe: the model stops where the platform is unspecified (log entry 11). -/
  | noSuchElement
deriving DecidableEq, Repr

/-- Why the machine gives a command no meaning. -/
inductive Refusal where
  /-- Raised by an arm of `exec` that has no meaning yet; no arm does. Safe. -/
  | notModelled (mnemonic : String)
deriving DecidableEq, Repr

/-- The machine right after reset: every register 0, every buffer element without a value (R36, R210). -/
def State.reset : State where
  height := 0
  width := 0
  channels := 0
  nsamples := 0
  theight := 0
  twidth := 0
  capacity := 0
  nslots := 0
  status := 0
  errcode := 0
  pixIn := []
  smpIn := []
  pixOut := []
  smpOut := []
  pending := []
  reply := none
  epoch := 0

end Sys2Proof.Machine
end

