-- ==== Sys2Proof/Machine/Flags.lean ====
section
/-! DEFINITION. The two flags of STATUS and the error codes of ERRCODE (spec/10_state.md R30, R31, R33). No operation of
the block sets any other flag (R33). -/

namespace Sys2Proof.Machine

/-- The STATUS word with DONE in bit 0, ERR in bit 1 and bits 7:2 zero (R30). -/
def statusWord (done err : Bool) : BitVec 8 := 0#6 ++ BitVec.ofBool err ++ BitVec.ofBool done

/-- STATUS.DONE (R30). -/
def State.done (s : State) : Bool := s.status.getLsbD 0

/-- STATUS.ERR (R30). -/
def State.err (s : State) : Bool := s.status.getLsbD 1

/-- The code of an error in ERRCODE; 0 is no error (R31, R180). -/
def errorCode : CommandError → BitVec 8
  | .unsupportedCarrierShape => 1
  | .malformedCarrier => 2
  | .illegalCommand => 3
  | .preconditionViolated => 4

end Sys2Proof.Machine
end

