-- ==== Sys2Proof/Machine/Ops.lean ====
section
/-! DEFINITION. The named operations over registers and buffer memories, the end of a command in an error and in success,
and reset (spec/10_state.md R21, R32, R35; spec/20_memory.md R51; spec/60_exceptions.md R186, R199;
spec/70_reset_and_hazards.md R210). -/

namespace Sys2Proof.Machine

/-! ## Buffer memories -/

/-- The canonical form: indices strictly rising. An unlisted element holds no value, so no entry can equal what an
unlisted one reads as. -/
abbrev Memory.wf {w : Nat} (m : Memory w) : Prop := m.Pairwise (fun a b => a.1 < b.1)

/-- Every listed index is below `n`, the number of elements of the space. -/
abbrev Memory.within {w : Nat} (m : Memory w) (n : Nat) : Prop := ∀ e ∈ m, e.1 < n

/-- The value an element holds; `none` if nothing has written it since reset (R36, R66). -/
def Memory.read? {w : Nat} : Memory w → Nat → Option (BitVec w)
  | [], _ => none
  | (j, u) :: rest, i => if i = j then some u else Memory.read? rest i

/-- `MemWrite`: store one whole element (R51), keeping the canonical form. -/
def Memory.write {w : Nat} : Memory w → Nat → BitVec w → Memory w
  | [], i, v => [(i, v)]
  | (j, u) :: rest, i, v =>
    if i < j then (i, v) :: (j, u) :: rest
    else if i = j then (i, v) :: rest
    else (j, u) :: Memory.write rest i v

/-- Several element writes, first to last. -/
def Memory.writeAll {w : Nat} (m : Memory w) (ps : List (Nat × BitVec w)) : Memory w :=
  ps.foldl (fun m p => Memory.write m p.1 p.2) m

/-- Writes to consecutive elements from index `i` on (FILL of R95). -/
def Memory.writeRun {w : Nat} : Memory w → Nat → List (BitVec w) → Memory w
  | m, _, [] => m
  | m, i, v :: vs => Memory.writeRun (Memory.write m i v) (i + 1) vs

/-- The number of elements of PIX_IN and of PIX_OUT (R50, R63). -/
def pixElements : Nat := 2 ^ Config.pixAddrBits

/-- The number of elements of SMP_IN and of SMP_OUT (R50, R63). -/
def smpElements : Nat := 2 ^ Config.lenBits

/-- `MemRead(PIX_IN:i, 8)`; an unwritten element is a free value (R66, U7; log entry 4). -/
def readPixIn (s : State) (i : Nat) : Byte :=
  (Memory.read? s.pixIn i).getD (Config.unwrittenPixIn s.epoch i)

/-- `MemRead(SMP_IN:i, 16)`; an unwritten element is a free value (R66, U7; log entry 4). -/
def readSmpIn (s : State) (i : Nat) : Sample :=
  (Memory.read? s.smpIn i).getD (Config.unwrittenSmpIn s.epoch i)

/-- The host's read of PIX_OUT; an unwritten element is a free value (U2; log entry 4). -/
def readPixOut (s : State) (i : Nat) : Byte :=
  (Memory.read? s.pixOut i).getD (Config.unwrittenPixOut s.epoch i)

/-- The host's read of SMP_OUT; an unwritten element is a free value (U2; log entry 4). -/
def readSmpOut (s : State) (i : Nat) : Sample :=
  (Memory.read? s.smpOut i).getD (Config.unwrittenSmpOut s.epoch i)

/-! ## Registers -/

/-- The host's read of a register; CMD reads 0 (R32, R35). -/
def readReg (s : State) : (r : Reg) → BitVec r.bits
  | .height => s.height
  | .width => s.width
  | .channels => s.channels
  | .nsamples => s.nsamples
  | .theight => s.theight
  | .twidth => s.twidth
  | .capacity => s.capacity
  | .nslots => s.nslots
  | .cmd => 0#8
  | .status => s.status
  | .errcode => s.errcode

/-- The host's write of a register: the four operand registers take the value, a read-only register ignores it (R35),
and CMD stores nothing (R32; what the write starts is `runCommandWord`). -/
def writeReg (s : State) : (r : Reg) → BitVec r.bits → State
  | .height, v => { s with height := v }
  | .width, v => { s with width := v }
  | .channels, v => { s with channels := v }
  | .nsamples, v => { s with nsamples := v }
  | .theight, _ => s
  | .twidth, _ => s
  | .capacity, _ => s
  | .nslots, _ => s
  | .cmd, _ => s
  | .status, _ => s
  | .errcode, _ => s

/-- A command's write of its four results (R25; R96 phase 5). -/
def writeResults (th tw cap nslots : Nat) (s : State) : State :=
  { s with
    theight := BitVec.ofNat Config.dimBits th
    twidth := BitVec.ofNat Config.dimBits tw
    capacity := BitVec.ofNat Config.lenBits cap
    nslots := BitVec.ofNat Config.pixAddrBits nslots }

/-! ## The end of a command -/

/-- `raise e(none)`: DONE and ERR become 1, ERRCODE the error's code, nothing else changes; nothing is saved and control
goes nowhere, so there is no return beside it (R186, R190). -/
def raise (e : CommandError) (s : State) : State :=
  { s with status := statusWord true true, errcode := errorCode e }

/-- Success: DONE becomes 1, ERR 0 and ERRCODE 0 (R199). -/
def complete (s : State) : State :=
  { s with status := statusWord true false, errcode := 0 }

/-! ## Reset -/

/-- The one reset: every register 0, every buffer's contents unspecified again (R36, R210). The host's own side, its
actions still to come and what it read, is not the block's and stays; the epoch moves on, so that the free contents after
this reset are not those before it (log entry 5). -/
def applyReset (s : State) : State :=
  { State.reset with pending := s.pending, reply := s.reply, epoch := s.epoch + 1 }

end Sys2Proof.Machine
end

