-- ==== Sys2Proof/Machine/Operands.lean ====
section
/-! DEFINITION. The mode table, the arithmetic primitives, the addresses a command forms and the operands it reads
(spec/00_scope.md R6, R8 to R11; spec/20_memory.md R55 to R57; spec/41_codec_encode.md R132 to R135). -/

namespace Sys2Proof.Machine

/-! ## The mode table (R6) -/

/-- `SLOTS`: carrier slots per sample (R6). -/
def slotsOf : Mode → Nat
  | .exact16 => 8
  | .packed12 => 6

/-- `PRE`: the arithmetic right shift of a sample before packing (R6). -/
def preOf : Mode → Nat
  | .exact16 => 0
  | .packed12 => 4

/-- `POST`: the net left shift of the reassembled value (R6). For PACKED12 it is the resolution of conflict C1 (U4, D14;
log entry 7). -/
def postOf : Mode → Nat
  | .exact16 => 0
  | .packed12 => 4

/-- `HDIV`: what the height is trimmed down to a multiple of (R6). -/
def hdivOf : Mode → Nat
  | .exact16 => 2
  | .packed12 => 1

/-- `WDIV`: what the width is trimmed down to a multiple of (R6). -/
def wdivOf : Mode → Nat
  | .exact16 => 4
  | .packed12 => 2

/-- `NCHAN`: channels of a pixel of the working buffer, in the order R, G, B (R5). -/
def nchan : Nat := 3

/-! ## Arithmetic primitives -/

/-- The signed value of a sample pattern: two's complement (R8; PRESUMED by the spec itself, G1; log entry 8). -/
def s16 (p : Sample) : Int := p.toInt

/-- The pattern of a signed value (R8). -/
def u16 (v : Int) : Sample := BitVec.ofInt 16 v

/-- Arithmetic right shift of a sample (R9). -/
def asr16 (p : Sample) (k : Nat) : Sample := p.sshiftRight k

/-- Left shift in 16 bits (R10). -/
def shl16 (p : Sample) (k : Nat) : Sample := p <<< k

/-- Quantisation, `byte -= byte % 4` (R11, R134). -/
def quantise (b : Byte) : Byte := b - b % 4#8

/-- The payload of a channel byte, `b mod 4` (R11, R163). -/
def payload (b : Byte) : Digit := b.setWidth 2

/-- The low 2 bits of a sample, `s mod 4`, never negative (section 5 of 00_scope.md; R138). -/
def lowDigit (p : Sample) : Digit := p.setWidth 2

/-- A quantised byte with a digit added into its two low bits (R137, R138). -/
def pack (q : Byte) (d : Digit) : Byte := q + d.setWidth 8

/-! ## Addresses -/

/-- The address in PIX_IN of element (r, c, ch) of the working buffer, for a presented width and channel count: a
grayscale element serves all three channels (R55). -/
def ain (width channels r c ch : Nat) : Nat :=
  if channels = nchan then (r * width + c) * nchan + ch else r * width + c

/-- The flat index of element (r, c, ch) in the trimmed buffer (R56). -/
def flat (tw r c ch : Nat) : Nat := (r * tw + c) * nchan + ch

/-- The channel of a flat index (R56). -/
def chanOf (f : Nat) : Nat := f % nchan

/-- The column of a flat index (R56). -/
def colOf (tw f : Nat) : Nat := f / nchan % tw

/-- The row of a flat index (R56). -/
def rowOf (tw f : Nat) : Nat := f / nchan / tw

/-! ## Operands -/

/-- `PP(r, c, ch)`, the promoted carrier: PIX_IN as presented, a grayscale carrier copied into all three channels (R132). -/
def promoted (s : State) (r c ch : Nat) : Byte :=
  readPixIn s (ain s.width.toNat s.channels.toNat r c ch)

/-- `SAMP(g)`, the sample group `g` carries: the `g`-th of SMP_IN, or 0 past NSAMPLES (R135). -/
def sampleFor (s : State) (g : Nat) : Sample :=
  if g < s.nsamples.toNat then readSmpIn s g else 0#16

/-- The two carrier shapes ENC accepts: 2-D grayscale and 3-channel colour (R23, R131). -/
def supportedShape (s : State) : Bool := s.channels = 1#8 || s.channels = 3#8

/-- A dimension of the presented carrier is 0 (R182, R184). -/
def zeroDimension (s : State) : Bool := s.height = 0 || s.width = 0

end Sys2Proof.Machine
end

