-- ==== Sys2Proof/Machine/Planner.lean ====
section
/-! DEFINITION. The Capacity Planner and the commands PLAN.X16 and PLAN.P12 (spec/40_planner.md). -/

namespace Sys2Proof.Machine

/-- The planner's results: trimmed height and width, capacity in samples, slot count (R110, R25). -/
structure Plan where
  /-- `trimmed_height`. -/
  th : Nat
  /-- `trimmed_width`. -/
  tw : Nat
  /-- `capacity_in_samples`. -/
  cap : Nat
  /-- The number of carrier slots of the trimmed region. -/
  nslots : Nat
deriving DecidableEq, Repr

/-- `TRIM(n, d)`: the largest multiple of `d` not above `n` (R111). -/
def trim (n d : Nat) : Nat := n - n % d

/-- The plan in EXACT16 mode (R112). -/
def planExact16 (h w : Nat) : Plan where
  th := trim h 2
  tw := trim w 4
  cap := trim h 2 * trim w 4 * 3 / 8
  nslots := trim h 2 * trim w 4 * 3

/-- The plan in PACKED12 mode (R113). -/
def planPacked12 (h w : Nat) : Plan where
  th := h
  tw := trim w 2
  cap := h * (trim w 2 / 2)
  nslots := h * trim w 2 * 3

/-- `plan(height, width, mode)` (R110). -/
def plan : Mode → Nat → Nat → Plan
  | .exact16, h, w => planExact16 h w
  | .packed12, h, w => planPacked12 h w

/-- The plan of the operands HEIGHT and WIDTH. -/
def planOf (m : Mode) (s : State) : Plan := plan m s.height.toNat s.width.toNat

/-- The write of a plan into THEIGHT, TWIDTH, CAPACITY and NSLOTS (R25; R96 phase 5). -/
def writePlan (p : Plan) (s : State) : State := writeResults p.th p.tw p.cap p.nslots s

/-- The phases of PLAN: check the dimensions, plan, write the results, complete (R96; R118, R184). -/
def planCommand (m : Mode) (s : State) : Host.Outcome State Fault Refusal :=
  if zeroDimension s then .next (raise .preconditionViolated s)
  else .next (complete (writePlan (planOf m s) s))

/-- PLAN.X16 (R112). -/
def execPlanX16 (s : State) : Host.Outcome State Fault Refusal := planCommand .exact16 s

/-- PLAN.P12 (R113). -/
def execPlanP12 (s : State) : Host.Outcome State Fault Refusal := planCommand .packed12 s

end Sys2Proof.Machine
end

