-- ==== Sys2Proof/Machine/Decoder.lean ====
section
/-! DEFINITION. The Bit-Packing Codec's decode and the commands DEC.X16 and DEC.P12 (spec/42_codec_decode.md). -/

namespace Sys2Proof.Machine

/-- A channel byte of the presented 3-channel carrier, `PI(r, c, ch)` of 42_codec_decode.md. -/
def colourByte (s : State) (r c ch : Nat) : Byte :=
  readPixIn s ((r * s.width.toNat + c) * nchan + ch)

/-- The EXACT16 accumulator over the slots `n - 1` down to 0: shift left by 2, then add the slot's digit (R164). -/
def accShiftAdd (digit : Nat → Digit) : Nat → Sample → Sample
  | 0, acc => acc
  | n + 1, acc => accShiftAdd digit n (shl16 acc 2 + (digit n).setWidth 16)

/-- The PACKED12 accumulator over the slots `n - 1` down to 0: add the slot's digit, then shift left by 2 (R168, C1). -/
def accAddShift (digit : Nat → Digit) : Nat → Sample → Sample
  | 0, acc => acc
  | n + 1, acc => accAddShift digit n (shl16 (acc + (digit n).setWidth 16) 2)

/-- The digit of slot `k` of group `g` in EXACT16 (R163, R167). -/
def digitExact16 (s : State) (tw g k : Nat) : Digit :=
  let f := 8 * g + k
  payload (colourByte s (rowOf tw f) (colOf tw f) (chanOf f))

/-- The digit of slot `k` of a pixel pair in PACKED12 (R163, R168). -/
def digitPacked12 (s : State) (row pair k : Nat) : Digit :=
  payload (colourByte s row (2 * pair + k / 3) (k % 3))

/-- The writes to SMP_OUT of DEC.X16 (R167). -/
def decWritesExact16 (p : Plan) (s : State) : List (Nat × Sample) :=
  (List.range p.cap).map fun g =>
    (g, accShiftAdd (digitExact16 s p.tw g) (slotsOf .exact16) 0)

/-- The writes to SMP_OUT of DEC.P12: six accumulate/shift cycles, then the one extra left shift by 2 (R168). -/
def decWritesPacked12 (p : Plan) (s : State) : List (Nat × Sample) :=
  (List.range p.th).flatMap fun row =>
    (List.range (p.tw / 2)).map fun pair =>
      (row * (p.tw / 2) + pair, shl16 (accAddShift (digitPacked12 s row pair) (slotsOf .packed12) 0) 2)

/-- The phases of DEC: check the carrier (R161), plan, write the results, transform and write SMP_OUT, complete (R96). -/
def decodeCommand (p : Plan) (writes : List (Nat × Sample)) (s : State) : Host.Outcome State Fault Refusal :=
  if s.channels ≠ 3#8 || zeroDimension s then .next (raise .malformedCarrier s)
  else .next (complete { writePlan p s with smpOut := Memory.writeAll s.smpOut writes })

/-- DEC.X16 (R167). -/
def execDecX16 (s : State) : Host.Outcome State Fault Refusal :=
  decodeCommand (planOf .exact16 s) (decWritesExact16 (planOf .exact16 s) s) s

/-- DEC.P12 (R168). -/
def execDecP12 (s : State) : Host.Outcome State Fault Refusal :=
  decodeCommand (planOf .packed12 s) (decWritesPacked12 (planOf .packed12 s) s) s

end Sys2Proof.Machine
end

