-- ==== Sys2Proof/Machine/Encoder.lean ====
section
/-! DEFINITION. The Bit-Packing Codec's encode and the commands ENC.X16 and ENC.P12 (spec/41_codec_encode.md). -/

namespace Sys2Proof.Machine

/-- The slot loop of R138 and R139: for the slots `k`, `k + 1`, … (`n` of them), quantise the slot's carrier byte, add the
two low bits of the running sample, and shift the sample right by 2, arithmetically. `cell` gives a slot's index in
PIX_OUT and its carrier byte. -/
def packLoop (cell : Nat → Nat × Byte) : Nat → Nat → Sample → List (Nat × Byte)
  | _, 0, _ => []
  | k, n + 1, v =>
    ((cell k).1, pack (quantise (cell k).2) (lowDigit v)) :: packLoop cell (k + 1) n (asr16 v 2)

/-- The slot `k` of group `g` in EXACT16: the byte at flat index `8 g + k` (R138). -/
def cellExact16 (s : State) (tw g k : Nat) : Nat × Byte :=
  let f := 8 * g + k
  (f, promoted s (rowOf tw f) (colOf tw f) (chanOf f))

/-- The slot `k` of a pixel pair in PACKED12: R1, G1, B1, R2, G2, B2 in that order (R92, R139). -/
def cellPacked12 (s : State) (tw row pair k : Nat) : Nat × Byte :=
  let c := 2 * pair + k / 3
  let ch := k % 3
  (flat tw row c ch, promoted s row c ch)

/-- The writes to PIX_OUT of ENC.X16: group by group, eight slots a group (R138). -/
def encWritesExact16 (p : Plan) (s : State) : List (Nat × Byte) :=
  (List.range p.cap).flatMap fun g =>
    packLoop (cellExact16 s p.tw g) 0 (slotsOf .exact16) (sampleFor s g)

/-- The writes to PIX_OUT of ENC.P12: row by row, pixel pair by pixel pair, six slots a pair, the sample shifted right
by 4 first (R139). -/
def encWritesPacked12 (p : Plan) (s : State) : List (Nat × Byte) :=
  (List.range p.th).flatMap fun row =>
    (List.range (p.tw / 2)).flatMap fun pair =>
      packLoop (cellPacked12 s p.tw row pair) 0 (slotsOf .packed12)
        (asr16 (sampleFor s (row * (p.tw / 2) + pair)) (preOf .packed12))

/-- The phases of ENC: check the shape (R131), check the dimensions (R184), plan, write the results, transform and write
PIX_OUT, complete (R96). -/
def encodeCommand (p : Plan) (writes : List (Nat × Byte)) (s : State) : Host.Outcome State Fault Refusal :=
  if !supportedShape s then .next (raise .unsupportedCarrierShape s)
  else if zeroDimension s then .next (raise .preconditionViolated s)
  else .next (complete { writePlan p s with pixOut := Memory.writeAll s.pixOut writes })

/-- ENC.X16 (R138). -/
def execEncX16 (s : State) : Host.Outcome State Fault Refusal :=
  encodeCommand (planOf .exact16 s) (encWritesExact16 (planOf .exact16 s) s) s

/-- ENC.P12 (R139). -/
def execEncP12 (s : State) : Host.Outcome State Fault Refusal :=
  encodeCommand (planOf .packed12 s) (encWritesPacked12 (planOf .packed12 s) s) s

end Sys2Proof.Machine
end

