-- ==== Sys2Proof/Machine/Dispatch.lean ====
section
/-! DEFINITION. One arm per command: the meaning `exec` gives it. -/

namespace Sys2Proof.Machine

-- The planner (spec/40_planner.md), the encoder (spec/41_codec_encode.md), the decoder (spec/42_codec_decode.md).
def exec (i : Instr) (s : State) : Host.Outcome State Fault Refusal :=
  match i with
  | .planX16 => Sys2Proof.Machine.execPlanX16 s
  | .encX16 => Sys2Proof.Machine.execEncX16 s
  | .decX16 => Sys2Proof.Machine.execDecX16 s
  | .planP12 => Sys2Proof.Machine.execPlanP12 s
  | .encP12 => Sys2Proof.Machine.execEncP12 s
  | .decP12 => Sys2Proof.Machine.execDecP12 s

end Sys2Proof.Machine
end

