-- ==== Sys2Proof/Machine/HostPort.lean ====
section
/-! DEFINITION. What each host action does: register access, the write to CMD that runs a command, buffer access, reset
(spec/10_state.md R32, R35; spec/30_encoding.md R83, R95; spec/70_reset_and_hazards.md R210). -/

namespace Sys2Proof.Machine

/-- A write of the word `c` to CMD: decode, run the command, or raise `IllegalCommand` for a reserved word (R83, R84, R183). -/
def runCommandWord (c : CommandWord) (s : State) : Host.Outcome State Fault Refusal :=
  match decode c with
  | .ok i => exec i s
  | .error _ => .next (raise .illegalCommand s)

/-- SET: a write to CMD runs a command, any other register write is `writeReg` (R32, R35). -/
def hostSet (s : State) : (r : Reg) → BitVec r.bits → Host.Outcome State Fault Refusal
  | .cmd, c => runCommandWord c s
  | r, v => .next (writeReg s r v)

/-- A run of `count` elements from index `i` lies in a space of `n` elements (R50, R63). -/
def runFits (i count n : Nat) : Bool := i + count ≤ n

/-- One host action (R95, R35, R210). A run that passes the end of its space faults (log entry 11). -/
def hostAct (a : HostAction) (s : State) : Host.Outcome State Fault Refusal :=
  match a with
  | .reset => .next (applyReset s)
  | .set r v => hostSet s r v
  | .get r => .next { s with reply := some (.register r (readReg s r)) }
  | .fillPixIn i vs =>
    if runFits i.toNat vs.length pixElements then
      .next { s with pixIn := Memory.writeRun s.pixIn i.toNat vs }
    else .fault .noSuchElement
  | .fillSmpIn i vs =>
    if runFits i.toNat vs.length smpElements then
      .next { s with smpIn := Memory.writeRun s.smpIn i.toNat vs }
    else .fault .noSuchElement
  | .dumpPixOut i count =>
    if runFits i.toNat count pixElements then
      .next { s with reply := some (.bytes ((List.range count).map fun k => readPixOut s (i.toNat + k))) }
    else .fault .noSuchElement
  | .dumpSmpOut i count =>
    if runFits i.toNat count smpElements then
      .next { s with reply := some (.samples ((List.range count).map fun k => readSmpOut s (i.toNat + k))) }
    else .fault .noSuchElement
  | .copyPixOut count =>
    if runFits 0 count pixElements then
      .next { s with pixIn := Memory.writeRun s.pixIn 0 ((List.range count).map (readPixOut s)) }
    else .fault .noSuchElement

end Sys2Proof.Machine
end

