-- ==== Sys2Proof/Machine/Step.lean ====
section
/-! DEFINITION. One step of the machine: the oldest host action still to come, performed whole (spec/30_encoding.md R83;
spec/20_memory.md R65). LSBPACK has no program counter and fetches nothing (R28): a command comes with a write to CMD. -/

namespace Sys2Proof.Machine

/-- The host's oldest action is performed; with none waiting, nothing changes (R28, R65; log entry 2). -/
def step (s : State) : Host.Outcome State Fault Refusal :=
  match s.pending with
  | [] => .next s
  | a :: rest => hostAct a { s with pending := rest }

/-- The host is about to write the word to CMD: that is how the next command reaches the block (R32; log entry 2). A
command word has 8 bits whatever the table says of a row (R85). -/
def State.withFetchWord (s : State) (_nbits w : Nat) : State :=
  { s with pending := .set .cmd (BitVec.ofNat 8 w) :: s.pending }

end Sys2Proof.Machine
end

