-- ==== Sys2Proof/Safety.lean ====
section
/-! DEFINITION. The terms the claims use: legal operands, the closed forms of encode and decode that the spec states
(spec/41_codec_encode.md R137; spec/42_codec_decode.md R166), the named premise of R66, and the invariant of the machine. -/

namespace Sys2Proof.Machine

/-! ## The commands by family and mode -/

/-- The PLAN command of a mode (R80). -/
def planInstr : Mode → Instr
  | .exact16 => .planX16
  | .packed12 => .planP12

/-- The ENC command of a mode (R80). -/
def encInstr : Mode → Instr
  | .exact16 => .encX16
  | .packed12 => .encP12

/-- The DEC command of a mode (R80). -/
def decInstr : Mode → Instr
  | .exact16 => .decX16
  | .packed12 => .decP12

/-- The mode of a command (R80). -/
def modeOf : Instr → Mode
  | .planX16 => .exact16
  | .encX16 => .exact16
  | .decX16 => .exact16
  | .planP12 => .packed12
  | .encP12 => .packed12
  | .decP12 => .packed12

/-! ## Legal operands -/

/-- PLAN's precondition: no dimension is 0 (R118). -/
abbrev PlanReady (s : State) : Prop := s.height ≠ 0 ∧ s.width ≠ 0

/-- ENC's operands are legal: a supported shape and no zero dimension (R131, R118). -/
abbrev EncReady (s : State) : Prop := (s.channels = 1 ∨ s.channels = 3) ∧ PlanReady s

/-- DEC's operands are legal: a 3-channel carrier of nonzero size (R161). -/
abbrev DecReady (s : State) : Prop := s.channels = 3 ∧ PlanReady s

/-- A command's operands are legal, so that it passes its checks. -/
def Ready : Instr → State → Prop
  | .planX16, s => PlanReady s
  | .encX16, s => EncReady s
  | .decX16, s => DecReady s
  | .planP12, s => PlanReady s
  | .encP12, s => EncReady s
  | .decP12, s => DecReady s

/-! ## The closed forms -/

/-- `DIGIT(s, k)` as bits `PRE + 2k + 1 : PRE + 2k` of the sample's pattern (R89). -/
def sampleDigit (m : Mode) (p : Sample) (k : Nat) : Digit := p.extractLsb' (preOf m + 2 * k) 2

/-- The promoted, cropped carrier byte at flat index `f` (R132, R133, R137). -/
def trimmedByte (m : Mode) (s : State) (f : Nat) : Byte :=
  promoted s (rowOf (planOf m s).tw f) (colOf (planOf m s).tw f) (chanOf f)

/-- `OUT(f)`, the encoded byte (R137). -/
def encodedByte (m : Mode) (s : State) (f : Nat) : Byte :=
  pack (quantise (trimmedByte m s f)) (sampleDigit m (sampleFor s (f / slotsOf m)) (f % slotsOf m))

/-- The presented 3-channel carrier's byte at flat index `f` of the trimmed region (R162). -/
def carrierByte (m : Mode) (s : State) (f : Nat) : Byte :=
  colourByte s (rowOf (planOf m s).tw f) (colOf (planOf m s).tw f) (chanOf f)

/-- `D(g, k)`, the digit of slot `k` of group `g` (R163). -/
def slotDigit (m : Mode) (s : State) (g k : Nat) : Digit := payload (carrierByte m s (slotsOf m * g + k))

/-- `U(g)`, the reassembled value (R165). -/
def groupValue (m : Mode) (s : State) (g : Nat) : Nat :=
  ∑ k ∈ Finset.range (slotsOf m), (slotDigit m s g k).toNat * 4 ^ k

/-- `DEC(g)`, the decoded sample's pattern (R166). -/
def decodedSample (m : Mode) (s : State) (g : Nat) : Sample :=
  shl16 (BitVec.ofNat 16 (groupValue m s g)) (postOf m)

/-! ## Premises and invariant -/

/-- R66's premise of ENC: every input element the command reads has been written since reset (R55, R57). -/
def EncReadSetWritten (m : Mode) (s : State) : Prop :=
  (∀ f < (planOf m s).nslots,
    (Memory.read? s.pixIn (ain s.width.toNat s.channels.toNat (rowOf (planOf m s).tw f) (colOf (planOf m s).tw f)
      (chanOf f))).isSome) ∧
  ∀ g < min s.nsamples.toNat (planOf m s).cap, (Memory.read? s.smpIn g).isSome

/-- R66's premise of DEC: every carrier byte of the trimmed region has been written since reset (R55, R162). -/
def DecReadSetWritten (m : Mode) (s : State) : Prop :=
  ∀ f < (planOf m s).nslots,
    (Memory.read? s.pixIn ((rowOf (planOf m s).tw f * s.width.toNat + colOf (planOf m s).tw f) * nchan
      + chanOf f)).isSome

/-- The host action names only elements its space has (R50, R63). -/
def HostAction.Fits : HostAction → Prop
  | .reset => True
  | .set _ _ => True
  | .get _ => True
  | .fillPixIn i vs => i.toNat + vs.length ≤ 2 ^ Config.pixAddrBits
  | .fillSmpIn i vs => i.toNat + vs.length ≤ 2 ^ Config.lenBits
  | .dumpPixOut i count => i.toNat + count ≤ 2 ^ Config.pixAddrBits
  | .dumpSmpOut i count => i.toNat + count ≤ 2 ^ Config.lenBits
  | .copyPixOut count => count ≤ 2 ^ Config.pixAddrBits

/-- What every reachable state satisfies, and every step keeps: canonical memories inside their spaces (R50, R63), the
reserved bits of STATUS zero (R30), ERRCODE at most 4 and nonzero exactly when ERR is set (R31), no result and no error
before the first command (R30, R36), and result registers that are one mode's plan of some dimensions (R25, R114). -/
structure Inv (s : State) : Prop where
  pixIn_wf : Memory.wf s.pixIn
  smpIn_wf : Memory.wf s.smpIn
  pixOut_wf : Memory.wf s.pixOut
  smpOut_wf : Memory.wf s.smpOut
  pixIn_within : Memory.within s.pixIn pixElements
  smpIn_within : Memory.within s.smpIn smpElements
  pixOut_within : Memory.within s.pixOut pixElements
  smpOut_within : Memory.within s.smpOut smpElements
  status_reserved : s.status.extractLsb' 2 6 = 0
  errcode_le : s.errcode.toNat ≤ 4
  err_iff : s.errcode ≠ 0 ↔ s.err = true
  not_done : s.done = false →
    s.err = false ∧ s.theight = 0 ∧ s.twidth = 0 ∧ s.capacity = 0 ∧ s.nslots = 0
  nslots_eq : s.nslots.toNat = s.theight.toNat * s.twidth.toNat * 3
  tiling : ∃ m : Mode, s.capacity.toNat * slotsOf m = s.nslots.toNat ∧
    s.theight.toNat % hdivOf m = 0 ∧ s.twidth.toNat % wdivOf m = 0

end Sys2Proof.Machine
end

