-- ==== Sys2Proof/Certificates/Slice0/Obligations.lean ====
section
/-! DEFINITION. The statements for the provers. Each docstring names the rule of spec/ it formalises; where the model's
own choice stands in a statement, the docstring names the log entry. -/

open Sys2Proof Sys2Proof.Machine

/-! ## The command word -/

/-- R82, words written out from the opcode map: four commands' words and two reserved ones. -/
def Obligations.TableWordsDecode : Prop :=
  decode 0b00000000#8 = .ok .planX16 ∧ decode 0b00000001#8 = .ok .encX16 ∧
  decode 0b00000010#8 = .ok .decX16 ∧ decode 0b00000101#8 = .ok .encP12 ∧
  decode 0b00000011#8 = .error .reservedOperation ∧ decode 0b10000001#8 = .error .reservedBits

/-- R82 (decision D6), R84: a word is a command exactly when it is that command's word in the map, and is reserved exactly
when OP is 11 or RSV is not 0; there are 250 reserved words. -/
def Obligations.OpcodeMapIsComplete : Prop :=
  (∀ (c : CommandWord) (i : Instr), decode c = .ok i ↔ c = encode i) ∧
  (∀ c : CommandWord, (∃ e, decode c = .error e) ↔ (c.extractLsb' 0 2 = 3#2 ∨ c.extractLsb' 3 5 ≠ 0#5)) ∧
  ((List.range 256).filter fun n => !decide (CommandWord.WellFormed (BitVec.ofNat 8 n))).length = 250

/-- Derived from R81, R82, R85: no bit of a command's word is dropped, by the decoder and by the host's window on it. -/
def Obligations.DecodingAnEncodedCommandGivesItBack : Prop :=
  ∀ i : Instr, i.WellFormed → decode (encode i) = .ok i ∧ decodeTableWord 8 (encode i).toNat = some i

/-! ## Steps -/

/-- R32, R83 with the model's queue of host actions (log entry 2): a step performs the host's next action on the state
with that action taken off the queue; when the action writes a word that decodes to `i` to CMD the step is `exec i`, and
when the word is reserved the step ends in `IllegalCommand` (R183). -/
def Obligations.StepRunsTheDecodedCommand : Prop :=
  (∀ (s : State) (a : HostAction) (rest : List HostAction),
    s.pending = a :: rest → step s = hostAct a { s with pending := rest }) ∧
  (∀ (s : State) (c : CommandWord) (i : Instr) (rest : List HostAction),
    s.pending = .set .cmd c :: rest → decode c = .ok i → step s = exec i { s with pending := rest }) ∧
  ∀ (s : State) (c : CommandWord) (e : DecodeError) (rest : List HostAction),
    s.pending = .set .cmd c :: rest → decode c = .error e →
    step s = .next { s with pending := rest, status := 0x03#8, errcode := 3#8 }

/-- Log entry 2 (the model's choice; R28 says the block does nothing by itself): with no host action waiting, a step
changes nothing. -/
def Obligations.IdleStepChangesNothing : Prop :=
  ∀ s : State, s.pending = [] → step s = .next s

/-- R64 and R185 (no access fault in a command) with log entry 11 (the model's choice): a step answers a next state exactly
when the host's next action, if there is one, names only elements its space has, and otherwise it faults. -/
def Obligations.StepStopsOnlyOnAHostRunPastTheEnd : Prop :=
  ∀ s : State,
    ((∀ a rest, s.pending = a :: rest → a.Fits) → ∃ t, step s = .next t) ∧
    ((∃ a rest, s.pending = a :: rest ∧ ¬ a.Fits) → step s = .fault .noSuchElement)

/-- R84 (decision D7), R183: a reserved word sets STATUS to DONE and ERR and ERRCODE to 3, and changes nothing else. -/
def Obligations.ReservedWordRaisesIllegalCommand : Prop :=
  ∀ (c : CommandWord) (s : State), ¬ c.WellFormed →
    runCommandWord c s = .next { s with status := 0x03#8, errcode := 3#8 }

/-! ## Host access and reset -/

/-- R36 and R210 (decision D16): after reset every register reads 0 and no buffer element holds a value. The state a
reset ACTION leaves says the same; that reset is an action of the queue is the model's choice (log entry 5). -/
def Obligations.ResetLeavesZeroRegistersAndEmptyBuffers : Prop :=
  (∀ r : Reg, readReg State.reset r = 0) ∧
  (∀ a, Memory.read? State.reset.pixIn a = none ∧ Memory.read? State.reset.smpIn a = none ∧
    Memory.read? State.reset.pixOut a = none ∧ Memory.read? State.reset.smpOut a = none) ∧
  ∀ s : State, ∃ t, hostAct .reset s = .next t ∧ (∀ r : Reg, readReg t r = 0) ∧
    ∀ a, Memory.read? t.pixIn a = none ∧ Memory.read? t.smpIn a = none ∧
      Memory.read? t.pixOut a = none ∧ Memory.read? t.smpOut a = none

/-- R35, R32 (decisions D3, D6): a host write to a read-only register changes nothing, a write to an operand register
changes that register alone, and a read changes no state of the block and gives the register's value, 0 for CMD.
Where a reply stands is the model's choice (log entry 3). -/
def Obligations.HostAccessToRegisters : Prop :=
  ∀ s : State,
    (∀ v, hostAct (.set .theight v) s = .next s) ∧ (∀ v, hostAct (.set .twidth v) s = .next s) ∧
    (∀ v, hostAct (.set .capacity v) s = .next s) ∧ (∀ v, hostAct (.set .nslots v) s = .next s) ∧
    (∀ v, hostAct (.set .status v) s = .next s) ∧ (∀ v, hostAct (.set .errcode v) s = .next s) ∧
    (∀ v, hostAct (.set .height v) s = .next { s with height := v }) ∧
    (∀ v, hostAct (.set .width v) s = .next { s with width := v }) ∧
    (∀ v, hostAct (.set .channels v) s = .next { s with channels := v }) ∧
    (∀ v, hostAct (.set .nsamples v) s = .next { s with nsamples := v }) ∧
    (∀ r, hostAct (.get r) s = .next { s with reply := some (.register r (readReg s r)) }) ∧
    readReg s .cmd = 0

/-- R95 FILL: consecutive elements of an input space take the given values, every other element and all else stays. -/
def Obligations.FillWritesARunAndNothingElse : Prop :=
  (∀ (s : State) (i : BitVec Config.pixAddrBits) (vs : List Byte),
    i.toNat + vs.length ≤ 2 ^ Config.pixAddrBits →
    ∃ t, hostAct (.fillPixIn i vs) s = .next t ∧ t = { s with pixIn := t.pixIn } ∧
      (∀ k < vs.length, Memory.read? t.pixIn (i.toNat + k) = vs[k]?) ∧
      ∀ a, a < i.toNat ∨ i.toNat + vs.length ≤ a → Memory.read? t.pixIn a = Memory.read? s.pixIn a) ∧
  (∀ (s : State) (i : BitVec Config.lenBits) (vs : List Sample),
    i.toNat + vs.length ≤ 2 ^ Config.lenBits →
    ∃ t, hostAct (.fillSmpIn i vs) s = .next t ∧ t = { s with smpIn := t.smpIn } ∧
      (∀ k < vs.length, Memory.read? t.smpIn (i.toNat + k) = vs[k]?) ∧
      ∀ a, a < i.toNat ∨ i.toNat + vs.length ≤ a → Memory.read? t.smpIn a = Memory.read? s.smpIn a)

/-- R95 DUMP: the host gets the elements' values in order, and nothing of the block changes. Where the reply stands is the
model's choice (log entry 3), and so is that an element nothing has written reads as a free value (log entry 4). -/
def Obligations.DumpGivesTheElementsInOrder : Prop :=
  (∀ (s : State) (i : BitVec Config.pixAddrBits) (count : Nat), i.toNat + count ≤ 2 ^ Config.pixAddrBits →
    ∃ vs : List Byte, hostAct (.dumpPixOut i count) s = .next { s with reply := some (.bytes vs) } ∧
      vs.length = count ∧ ∀ k < count, vs[k]? = some (readPixOut s (i.toNat + k))) ∧
  (∀ (s : State) (i : BitVec Config.lenBits) (count : Nat), i.toNat + count ≤ 2 ^ Config.lenBits →
    ∃ vs : List Sample, hostAct (.dumpSmpOut i count) s = .next { s with reply := some (.samples vs) } ∧
      vs.length = count ∧ ∀ k < count, vs[k]? = some (readSmpOut s (i.toNat + k)))

/-- R95 COPY, R226: the first `count` elements of PIX_OUT appear in PIX_IN, the rest of PIX_IN and all else stays. Neither
rule says what COPY does with an element of PIX_OUT that nothing has written: that PIX_IN then holds the free value the
element reads as is the model's choice (log entry 4, DESIGN CHOICE), and the statement holds for every such value. -/
def Obligations.CopyMovesTheOutputIntoTheInput : Prop :=
  ∀ (s : State) (count : Nat), count ≤ 2 ^ Config.pixAddrBits →
    ∃ t, hostAct (.copyPixOut count) s = .next t ∧ t = { s with pixIn := t.pixIn } ∧
      (∀ a < count, Memory.read? t.pixIn a = some (readPixOut s a)) ∧
      ∀ a, count ≤ a → Memory.read? t.pixIn a = Memory.read? s.pixIn a

/-- R21, R35, R50: a host action that neither writes CMD nor resets leaves the result registers, STATUS, ERRCODE and both
output buffers as they were (the queue and the epoch are the model's, log entries 2 and 5). -/
def Obligations.OnlyCommandsAndResetWriteResults : Prop :=
  ∀ (s t : State) (a : HostAction) (rest : List HostAction),
    s.pending = a :: rest → (∀ c, a ≠ .set .cmd c) → a ≠ .reset → step s = .next t →
    t.theight = s.theight ∧ t.twidth = s.twidth ∧ t.capacity = s.capacity ∧ t.nslots = s.nslots ∧
    t.status = s.status ∧ t.errcode = s.errcode ∧ t.pixOut = s.pixOut ∧ t.smpOut = s.smpOut ∧
    t.pending = rest ∧ t.epoch = s.epoch

/-! ## Every command -/

/-- R30, R31, R199, R228: a write to CMD always completes; afterwards DONE is 1, STATUS bits 7:2 are 0, ERRCODE is at most
4 and is nonzero exactly when ERR is 1. -/
def Obligations.EveryCommandWordReportsItsOutcome : Prop :=
  ∀ (c : CommandWord) (s : State), ∃ t, runCommandWord c s = .next t ∧ t.done = true ∧
    t.status.extractLsb' 2 6 = 0#6 ∧ t.errcode.toNat ≤ 4 ∧ (t.errcode ≠ 0 ↔ t.err = true)

/-- R186 (decision D15), R187: a command that ends in an error sets DONE and ERR, puts the error's code in ERRCODE, and
changes nothing else, not a result register and not a buffer element. -/
def Obligations.ErrorChangesOnlyStatusAndErrcode : Prop :=
  ∀ (c : CommandWord) (s t : State), runCommandWord c s = .next t → t.err = true →
    ∃ e : CommandError, t = { s with status := 0x03#8, errcode := errorCode e }

/-- R22, R26, R50, R58, R62: no command writes an operand register or an input buffer; only ENC writes PIX_OUT and only
DEC writes SMP_OUT. -/
def Obligations.CommandsLeaveInputsAndForeignOutputs : Prop :=
  ∀ (c : CommandWord) (s t : State), runCommandWord c s = .next t →
    t.height = s.height ∧ t.width = s.width ∧ t.channels = s.channels ∧ t.nsamples = s.nsamples ∧
    t.pixIn = s.pixIn ∧ t.smpIn = s.smpIn ∧ t.pending = s.pending ∧ t.reply = s.reply ∧ t.epoch = s.epoch ∧
    ((∀ m, decode c ≠ .ok (encInstr m)) → t.pixOut = s.pixOut) ∧
    ((∀ m, decode c ≠ .ok (decInstr m)) → t.smpOut = s.smpOut)

/-- R29: what a command does is a function of the command word, the four operand registers and the contents of the input
buffers' extents: two states that agree in these end with the same STATUS and ERRCODE and, on success, the same results
and the same output extent. -/
def Obligations.CommandsDependOnlyOnTheirInputs : Prop :=
  ∀ (c : CommandWord) (s s' : State),
    s'.height = s.height → s'.width = s.width → s'.channels = s.channels → s'.nsamples = s.nsamples →
    (∀ a < s.height.toNat * s.width.toNat * s.channels.toNat, readPixIn s' a = readPixIn s a) →
    (∀ a < s.nsamples.toNat, readSmpIn s' a = readSmpIn s a) →
    ∃ t t', runCommandWord c s = .next t ∧ runCommandWord c s' = .next t' ∧
      t'.status = t.status ∧ t'.errcode = t.errcode ∧
      (t.err = false →
        t'.theight = t.theight ∧ t'.twidth = t.twidth ∧ t'.capacity = t.capacity ∧ t'.nslots = t.nslots ∧
        (∀ m, decode c = .ok (encInstr m) →
          ∀ f < t.nslots.toNat, Memory.read? t'.pixOut f = Memory.read? t.pixOut f) ∧
        (∀ m, decode c = .ok (decInstr m) →
          ∀ g < t.capacity.toNat, Memory.read? t'.smpOut g = Memory.read? t.smpOut g))

/-- R26 (decision D24): PLAN does not read CHANNELS or NSAMPLES, and DEC does not read NSAMPLES. -/
def Obligations.IgnoredOperandsHaveNoEffect : Prop :=
  (∀ (m : Mode) (s : State) (c : BitVec 8) (n : BitVec Config.lenBits), ∃ t,
    exec (planInstr m) s = .next t ∧
    exec (planInstr m) { s with channels := c, nsamples := n } = .next { t with channels := c, nsamples := n }) ∧
  ∀ (m : Mode) (s : State) (n : BitVec Config.lenBits), ∃ t,
    exec (decInstr m) s = .next t ∧ exec (decInstr m) { s with nsamples := n } = .next { t with nsamples := n }

/-! ## The planner -/

/-- R112 with R25, R27 and R199: PLAN.X16 on nonzero dimensions writes exactly the four results, STATUS 0x01 and
ERRCODE 0. (No code is stated for a zero dimension: R118 and U1 ask that no claim rest on it.) -/
def Obligations.PlanX16WritesThePlan : Prop :=
  ∀ s : State, PlanReady s → ∃ t, exec .planX16 s = .next t ∧
    t.theight.toNat = s.height.toNat - s.height.toNat % 2 ∧
    t.twidth.toNat = s.width.toNat - s.width.toNat % 4 ∧
    t.capacity.toNat =
      (s.height.toNat - s.height.toNat % 2) * (s.width.toNat - s.width.toNat % 4) * 3 / 8 ∧
    t.nslots.toNat = (s.height.toNat - s.height.toNat % 2) * (s.width.toNat - s.width.toNat % 4) * 3 ∧
    t = { s with
      theight := t.theight, twidth := t.twidth, capacity := t.capacity, nslots := t.nslots,
      status := 0x01#8, errcode := 0#8 }

/-- R113 with R25, R27 and R199: PLAN.P12 on nonzero dimensions, as `PlanX16WritesThePlan`. -/
def Obligations.PlanP12WritesThePlan : Prop :=
  ∀ s : State, PlanReady s → ∃ t, exec .planP12 s = .next t ∧
    t.theight.toNat = s.height.toNat ∧
    t.twidth.toNat = s.width.toNat - s.width.toNat % 2 ∧
    t.capacity.toNat = s.height.toNat * ((s.width.toNat - s.width.toNat % 2) / 2) ∧
    t.nslots.toNat = s.height.toNat * (s.width.toNat - s.width.toNat % 2) * 3 ∧
    t = { s with
      theight := t.theight, twidth := t.twidth, capacity := t.capacity, nslots := t.nslots,
      status := 0x01#8, errcode := 0#8 }

/-- The choice of log entry 6 (DEDUCED from R184, R186 and decision D10): on a zero dimension PLAN, and ENC with a
supported shape, write no result and no buffer, and change at most STATUS and ERRCODE. The source gives the case no meaning
(R118, U1): a machine that plans it as capacity 0, as conflict C4 weighs, would falsify the statement. It names no error
code. -/
def Obligations.ZeroDimensionWritesNoResult : Prop :=
  ∀ (m : Mode) (s : State), ¬ PlanReady s →
    (∃ t, exec (planInstr m) s = .next t ∧ t = { s with status := t.status, errcode := t.errcode }) ∧
    ((s.channels = 1 ∨ s.channels = 3) →
      ∃ t, exec (encInstr m) s = .next t ∧ t = { s with status := t.status, errcode := t.errcode })

/-- R111: TRIM gives the largest multiple of `d` not above `n`, `n` itself for `d = 1`, 0 exactly when `n < d`, and is
idempotent. -/
def Obligations.TrimGivesTheLargestMultiple : Prop :=
  ∀ n d : Nat, 1 ≤ d →
    trim n d = n - n % d ∧ d ∣ trim n d ∧ trim n d ≤ n ∧ (∀ k, d ∣ k → k ≤ n → k ≤ trim n d) ∧
    trim n 1 = n ∧ (trim n d = 0 ↔ n < d) ∧ trim (trim n d) d = trim n d

/-- R114: after every successful command the groups tile the trimmed buffer, `CAPACITY × SLOTS = NSLOTS =
THEIGHT × TWIDTH × 3`. -/
def Obligations.CapacityTilesTheTrimmedCarrier : Prop :=
  ∀ (i : Instr) (s : State), Ready i s → ∃ t, exec i s = .next t ∧
    t.capacity.toNat * slotsOf (modeOf i) = t.theight.toNat * t.twidth.toNat * 3 ∧
    t.theight.toNat * t.twidth.toNat * 3 = t.nslots.toNat

/-- R119 (the spec derives it from R111 and R6): each trimmed dimension is a multiple of the mode's divisor, not above
the presented one and less than a divisor below it. -/
def Obligations.TrimmedDimensionsAreBounded : Prop :=
  ∀ (i : Instr) (s : State), Ready i s → ∃ t, exec i s = .next t ∧
    t.theight.toNat ≤ s.height.toNat ∧ s.height.toNat < t.theight.toNat + hdivOf (modeOf i) ∧
    t.twidth.toNat ≤ s.width.toNat ∧ s.width.toNat < t.twidth.toNat + wdivOf (modeOf i) ∧
    hdivOf (modeOf i) ∣ t.theight.toNat ∧ wdivOf (modeOf i) ∣ t.twidth.toNat

/-- R116 (the spec derives it from R111): planning a nonempty trimmed carrier again gives the same plan; across modes it
need not: an EXACT16 plan is aligned for PACKED12 but has another capacity, and some PACKED12 plan is not aligned for
EXACT16. -/
def Obligations.PlanningATrimmedCarrierChangesNothing : Prop :=
  (∀ (m : Mode) (h w : Nat), 0 < (plan m h w).th → 0 < (plan m h w).tw →
    plan m (plan m h w).th (plan m h w).tw = plan m h w) ∧
  (∀ h w : Nat, 0 < (plan .exact16 h w).th → 0 < (plan .exact16 h w).tw →
    (plan .packed12 (plan .exact16 h w).th (plan .exact16 h w).tw).th = (plan .exact16 h w).th ∧
    (plan .packed12 (plan .exact16 h w).th (plan .exact16 h w).tw).tw = (plan .exact16 h w).tw ∧
    (plan .packed12 (plan .exact16 h w).th (plan .exact16 h w).tw).cap ≠ (plan .exact16 h w).cap) ∧
  ∃ h w : Nat, 0 < (plan .packed12 h w).th ∧ 0 < (plan .packed12 h w).tw ∧
    plan .exact16 (plan .packed12 h w).th (plan .packed12 h w).tw ≠ plan .packed12 h w ∧
    (plan .exact16 (plan .packed12 h w).th (plan .packed12 h w).tw).tw ≠ (plan .packed12 h w).tw

/-- R117: the four results depend on HEIGHT, WIDTH and the mode only, PLAN writes no buffer, and ENC and DEC, which plan
for themselves, write the same four results. -/
def Obligations.EveryCommandOfAModePlansAlike : Prop :=
  ∀ (m : Mode) (s s' : State), PlanReady s → s'.height = s.height → s'.width = s.width →
    ∃ t t', exec (planInstr m) s = .next t ∧ exec (planInstr m) s' = .next t' ∧
      t'.theight = t.theight ∧ t'.twidth = t.twidth ∧ t'.capacity = t.capacity ∧ t'.nslots = t.nslots ∧
      t.pixIn = s.pixIn ∧ t.smpIn = s.smpIn ∧ t.pixOut = s.pixOut ∧ t.smpOut = s.smpOut ∧
      (EncReady s' → ∃ u, exec (encInstr m) s' = .next u ∧
        u.theight = t.theight ∧ u.twidth = t.twidth ∧ u.capacity = t.capacity ∧ u.nslots = t.nslots) ∧
      (DecReady s' → ∃ u, exec (decInstr m) s' = .next u ∧
        u.theight = t.theight ∧ u.twidth = t.twidth ∧ u.capacity = t.capacity ∧ u.nslots = t.nslots)

/-- R200, with R115, R143 and R172: with legal operands a plan of capacity 0 is a success and no output element is written;
it arises exactly for the dimensions R115 lists, and exactly when NSLOTS is 0 (which R115 derives from R114). -/
def Obligations.ZeroCapacityIsSuccess : Prop :=
  ∀ (i : Instr) (s : State), Ready i s → ∃ t, exec i s = .next t ∧
    (t.capacity = 0 ↔ t.nslots = 0) ∧
    (t.capacity = 0 ↔
      match modeOf i with
      | .exact16 => s.height.toNat = 1 ∨ s.width.toNat ≤ 3
      | .packed12 => s.width.toNat = 1) ∧
    (t.capacity = 0 →
      t.status = 0x01#8 ∧ t.errcode = 0#8 ∧ t.pixOut = s.pixOut ∧ t.smpOut = s.smpOut)

/-! ## Encode -/

/-- R137, both modes: with legal operands ENC completes, and every byte of the extent holds `Q(PP) + DIGIT`, whose upper
six bits are the carrier's and whose low two bits are the sample's digit. -/
def Obligations.EncodeWritesTheClosedForm : Prop :=
  ∀ (m : Mode) (s : State), EncReady s → ∃ t, exec (encInstr m) s = .next t ∧
    ∀ f < (planOf m s).th * (planOf m s).tw * 3,
      Memory.read? t.pixOut f = some (encodedByte m s f) ∧
      (quantise (trimmedByte m s f)).toNat +
        (sampleDigit m (sampleFor s (f / slotsOf m)) (f % slotsOf m)).toNat = (encodedByte m s f).toNat ∧
      (encodedByte m s f).extractLsb' 2 6 = (trimmedByte m s f).extractLsb' 2 6 ∧
      payload (encodedByte m s f) = sampleDigit m (sampleFor s (f / slotsOf m)) (f % slotsOf m)

/-- The frame of ENC (R26, R58, R199): the plan goes to the result registers, STATUS is 0x01, ERRCODE 0, no element of
PIX_OUT at or beyond NSLOTS changes, and nothing else changes. -/
def Obligations.EncodeChangesOnlyItsExtent : Prop :=
  ∀ (m : Mode) (s : State), EncReady s → ∃ t, exec (encInstr m) s = .next t ∧
    t.theight.toNat = (planOf m s).th ∧ t.twidth.toNat = (planOf m s).tw ∧
    t.capacity.toNat = (planOf m s).cap ∧ t.nslots.toNat = (planOf m s).nslots ∧
    t = { s with
      theight := t.theight, twidth := t.twidth, capacity := t.capacity, nslots := t.nslots,
      status := 0x01#8, errcode := 0#8, pixOut := t.pixOut } ∧
    ∀ a, (planOf m s).nslots ≤ a → Memory.read? t.pixOut a = Memory.read? s.pixOut a

/-- R181: ENC with CHANNELS neither 1 nor 3 raises `UnsupportedCarrierShape` and writes nothing else; PLAN and DEC never
raise it. -/
def Obligations.EncodeRejectsOtherShapes : Prop :=
  (∀ (m : Mode) (s : State), s.channels ≠ 1 → s.channels ≠ 3 →
    exec (encInstr m) s = .next { s with status := 0x03#8, errcode := 1#8 }) ∧
  ∀ (m : Mode) (s t : State),
    exec (planInstr m) s = .next t ∨ exec (decInstr m) s = .next t → t.errcode ≠ 1#8

/-- R141 (the spec derives it from R134 and R137): every output byte differs from the promoted, cropped carrier byte by
less than 4 and keeps its upper six bits. -/
def Obligations.EncodedBytesStayWithinThree : Prop :=
  ∀ (m : Mode) (s : State), EncReady s → ∃ t, exec (encInstr m) s = .next t ∧
    ∀ f < (planOf m s).nslots, ∃ b, Memory.read? t.pixOut f = some b ∧
      |(b.toNat : Int) - ((trimmedByte m s f).toNat : Int)| < 4 ∧
      b.extractLsb' 2 6 = (trimmedByte m s f).extractLsb' 2 6

/-- R142 (the spec derives it from R132 and R137): a gray carrier presented with CHANNELS = 1 and the colour carrier whose
three channels equal it encode to the same results and the same PIX_OUT extent. -/
def Obligations.GrayscaleEncodesLikeEqualChannels : Prop :=
  ∀ (m : Mode) (s s' : State), PlanReady s →
    s'.height = s.height → s'.width = s.width → s'.nsamples = s.nsamples →
    s.channels = 1 → s'.channels = 3 →
    (∀ g < s.nsamples.toNat, readSmpIn s' g = readSmpIn s g) →
    (∀ r < s.height.toNat, ∀ c < s.width.toNat, ∀ ch < 3,
      readPixIn s' ((r * s.width.toNat + c) * 3 + ch) = readPixIn s (r * s.width.toNat + c)) →
    ∃ t t', exec (encInstr m) s = .next t ∧ exec (encInstr m) s' = .next t' ∧
      t'.theight = t.theight ∧ t'.twidth = t.twidth ∧ t'.capacity = t.capacity ∧ t'.nslots = t.nslots ∧
      ∀ f < t.nslots.toNat, Memory.read? t'.pixOut f = Memory.read? t.pixOut f

/-- R135: samples at or past the capacity have no effect on the output or on any register, and a group past NSAMPLES
carries 0, so that its bytes are the quantised carrier. -/
def Obligations.SamplesAreTruncatedAndPadded : Prop :=
  (∀ (m : Mode) (s : State) (n : BitVec Config.lenBits) (mem : Memory 16), EncReady s →
    (∀ g < (planOf m s).cap, sampleFor { s with nsamples := n, smpIn := mem } g = sampleFor s g) →
    ∃ t, exec (encInstr m) s = .next t ∧
      exec (encInstr m) { s with nsamples := n, smpIn := mem } = .next { t with nsamples := n, smpIn := mem }) ∧
  ∀ (m : Mode) (s : State), EncReady s → ∃ t, exec (encInstr m) s = .next t ∧
    ∀ f < (planOf m s).nslots, s.nsamples.toNat ≤ f / slotsOf m →
      Memory.read? t.pixOut f = some (quantise (trimmedByte m s f))

/-- R66 with U7: where every element the command reads has been written, no free value reaches its result: another epoch
(log entries 4 and 5) gives the same outcome but for the epoch itself. -/
def Obligations.WrittenInputsLeaveNoFreeValue : Prop :=
  (∀ (m : Mode) (s : State) (e : Nat), EncReady s → EncReadSetWritten m s →
    ∃ t, exec (encInstr m) s = .next t ∧
      exec (encInstr m) { s with epoch := e } = .next { t with epoch := e }) ∧
  ∀ (m : Mode) (s : State) (e : Nat), DecReady s → DecReadSetWritten m s →
    ∃ t, exec (decInstr m) s = .next t ∧
      exec (decInstr m) { s with epoch := e } = .next { t with epoch := e }

/-! ## Decode -/

/-- R166, both modes: with legal operands DEC completes, and sample `g` of the extent is `U(g)` shifted left by POST, which
loses no bit (R10 derives that). In PACKED12 POST = 4 is the spec's resolution of conflict C1 (decision D14), which the
model takes over in log entry 7 (DEDUCED). -/
def Obligations.DecodeWritesTheClosedForm : Prop :=
  ∀ (m : Mode) (s : State), DecReady s → ∃ t, exec (decInstr m) s = .next t ∧
    ∀ g < (planOf m s).cap,
      Memory.read? t.smpOut g = some (decodedSample m s g) ∧
      (decodedSample m s g).toNat = groupValue m s g * 2 ^ postOf m ∧
      groupValue m s g < 4 ^ slotsOf m

/-- The frame of DEC (R26, R58, R199): as `EncodeChangesOnlyItsExtent`, with SMP_OUT and CAPACITY. -/
def Obligations.DecodeChangesOnlyItsExtent : Prop :=
  ∀ (m : Mode) (s : State), DecReady s → ∃ t, exec (decInstr m) s = .next t ∧
    t.theight.toNat = (planOf m s).th ∧ t.twidth.toNat = (planOf m s).tw ∧
    t.capacity.toNat = (planOf m s).cap ∧ t.nslots.toNat = (planOf m s).nslots ∧
    t = { s with
      theight := t.theight, twidth := t.twidth, capacity := t.capacity, nslots := t.nslots,
      status := 0x01#8, errcode := 0#8, smpOut := t.smpOut } ∧
    ∀ a, (planOf m s).cap ≤ a → Memory.read? t.smpOut a = Memory.read? s.smpOut a

/-- R161, R182: DEC raises `MalformedCarrier` exactly when CHANNELS is not 3 or a dimension is 0, and then writes nothing
else; a carrier of nonzero size is no error whatever its capacity; PLAN and ENC never raise it. -/
def Obligations.DecodeRejectsMalformedCarriers : Prop :=
  (∀ (m : Mode) (s : State), s.channels ≠ 3 ∨ s.height = 0 ∨ s.width = 0 →
    exec (decInstr m) s = .next { s with status := 0x03#8, errcode := 2#8 }) ∧
  (∀ (m : Mode) (s : State), DecReady s → ∃ t, exec (decInstr m) s = .next t ∧ t.errcode = 0#8) ∧
  ∀ (m : Mode) (s t : State),
    exec (planInstr m) s = .next t ∨ exec (encInstr m) s = .next t → t.errcode ≠ 2#8

/-- R173 (the spec derives it from R163): digit `k` of sample `g` is the same for two carriers of equal shape exactly when
bits 1:0 of that slot's byte are; bits 7:2 have no effect. So carriers that agree in all their payloads decode to the
same samples, and changing one byte's payload alters exactly one digit of exactly one sample. Where digit `k` stands in a
PACKED12 sample uses POST = 4 (conflict C1, log entry 7). -/
def Obligations.DecodeIgnoresImageBits : Prop :=
  ∀ (m : Mode) (s s' : State), DecReady s →
    s'.height = s.height → s'.width = s.width → s'.channels = 3 →
    ∃ t t', exec (decInstr m) s = .next t ∧ exec (decInstr m) s' = .next t' ∧
      ((∀ f < (planOf m s).nslots, payload (carrierByte m s' f) = payload (carrierByte m s f)) →
        ∀ g < (planOf m s).cap, Memory.read? t'.smpOut g = Memory.read? t.smpOut g) ∧
      ∀ g < (planOf m s).cap, ∃ p p', Memory.read? t.smpOut g = some p ∧ Memory.read? t'.smpOut g = some p' ∧
        ∀ k < slotsOf m,
          (p'.extractLsb' (postOf m + 2 * k) 2 = p.extractLsb' (postOf m + 2 * k) 2 ↔
            payload (carrierByte m s' (slotsOf m * g + k)) = payload (carrierByte m s (slotsOf m * g + k)))

/-- R169 (the spec derives it from R165, R166, R137), R171: decoding in EXACT16 a carrier whose payloads are those ENC.X16
left in PIX_OUT, at the trimmed dimensions, gives back every sample, with zeros for the padded ones. The premise on the
payloads is U8's. -/
def Obligations.ExactRoundTripIsLossless : Prop :=
  ∀ s s1 s2 : State, EncReady s → exec .encX16 s = .next s1 → s1.theight ≠ 0 → s1.twidth ≠ 0 →
    s2.height = s1.theight → s2.width = s1.twidth → s2.channels = 3 →
    (∀ f < s1.nslots.toNat, payload (readPixIn s2 f) = payload (readPixOut s1 f)) →
    ∃ t, exec .decX16 s2 = .next t ∧ t.capacity = s1.capacity ∧
      ∀ g < t.capacity.toNat, Memory.read? t.smpOut g = some (sampleFor s g)

/-- R170 (the spec derives it from R165, R166, R89; POST is conflict C1's resolution, log entry 7), R171: the same round
trip in PACKED12 gives back every sample with its low four bits cleared, an error of 0 to 15. -/
def Obligations.PackedRoundTripClearsTheLowBits : Prop :=
  ∀ s s1 s2 : State, EncReady s → exec .encP12 s = .next s1 → s1.theight ≠ 0 → s1.twidth ≠ 0 →
    s2.height = s1.theight → s2.width = s1.twidth → s2.channels = 3 →
    (∀ f < s1.nslots.toNat, payload (readPixIn s2 f) = payload (readPixOut s1 f)) →
    ∃ t, exec .decP12 s2 = .next t ∧ t.capacity = s1.capacity ∧
      ∀ g < t.capacity.toNat, ∃ p, Memory.read? t.smpOut g = some p ∧
        s16 p = s16 (sampleFor s g) - s16 (sampleFor s g) % 16 ∧
        asr16 p 4 = asr16 (sampleFor s g) 4 ∧
        0 ≤ s16 (sampleFor s g) - s16 p ∧ s16 (sampleFor s g) - s16 p ≤ 15

/-! ## Primitives and the slot-to-sample mapping -/

/-- R9: the arithmetic right shift is the floor of the division by a power of two, and on patterns it is bits
`15+k : k` of the sign extension. -/
def Obligations.ArithmeticShiftIsFloorDivision : Prop :=
  ∀ (p : Sample) (k : Nat), k ≤ 16 →
    s16 (asr16 p k) = s16 p / 2 ^ k ∧ asr16 p k = (p.signExtend (16 + k)).extractLsb' k 16

/-- R89 (the spec derives it from R6 and R9), R140: the digit the slot loop adds at slot `k` is bits
`PRE + 2k + 1 : PRE + 2k` of the sample's own pattern. -/
def Obligations.LoopDigitsAreBitsOfTheSample : Prop :=
  ∀ (m : Mode) (p : Sample) (k : Nat), k < slotsOf m →
    lowDigit (asr16 (asr16 p (preOf m)) (2 * k)) = sampleDigit m p k

/-- R11, R134: quantising clears the two low bits and loses at most 3, and adding a digit to a quantised byte never
carries, so that it is the bitwise OR. -/
def Obligations.ByteArithmeticNeverCarries : Prop :=
  ∀ (b : Byte) (d : Digit),
    quantise b = b &&& 0xFC#8 ∧ quantise (quantise b) = quantise b ∧ (quantise b).toNat ≤ 252 ∧
    (quantise b).toNat ≤ b.toNat ∧ b.toNat - (quantise b).toNat ≤ 3 ∧
    (quantise b).toNat = b.toNat - b.toNat % 4 ∧
    pack (quantise b) d = quantise b ||| d.setWidth 8 ∧
    (pack (quantise b) d).toNat = (quantise b).toNat + d.toNat

/-- R164, R165, R168 (the spec's closed form of its two loops; conflict C1, log entry 7): shift-then-add over eight digits gives `U`,
and add-then-shift over six digits with one more shift by 2 gives `16 × U`. -/
def Obligations.AccumulatorsGiveTheReassembledValue : Prop :=
  ∀ d : Nat → Digit,
    (accShiftAdd d 8 0).toNat = ∑ k ∈ Finset.range 8, (d k).toNat * 4 ^ k ∧
    (shl16 (accAddShift d 6 0) 2).toNat = 16 * ∑ k ∈ Finset.range 6, (d k).toNat * 4 ^ k

/-- R92 (the spec derives it from R56 and R113): in PACKED12 slot `k` of pixel pair (row, pair) lies at flat index
`6 g + k` with `g = row × (tw div 2) + pair`. -/
def Obligations.PixelPairsAreGroupsOfSix : Prop :=
  ∀ tw row pair k : Nat, tw % 2 = 0 → pair < tw / 2 → k < 6 →
    flat tw row (2 * pair + k / 3) (k % 3) = 6 * (row * (tw / 2) + pair) + k ∧
    (6 * (row * (tw / 2) + pair) + k) / 6 = row * (tw / 2) + pair ∧
    (6 * (row * (tw / 2) + pair) + k) % 6 = k

/-- R56: the flat index numbers the elements of the trimmed buffer one to one, and row, column and channel are read back
from it. -/
def Obligations.FlatIndexIsABijection : Prop :=
  (∀ th tw r c ch : Nat, r < th → c < tw → ch < 3 →
    flat tw r c ch < th * tw * 3 ∧ rowOf tw (flat tw r c ch) = r ∧ colOf tw (flat tw r c ch) = c ∧
    chanOf (flat tw r c ch) = ch) ∧
  ∀ th tw f : Nat, f < th * tw * 3 →
    rowOf tw f < th ∧ colOf tw f < tw ∧ chanOf f < 3 ∧ flat tw (rowOf tw f) (colOf tw f) (chanOf f) = f

/-! ## The invariant -/

/-- R30, R31, R36, R50, R114 over every step, host actions and commands alike: `Inv` is kept from every state that meets
it, reachable or not. -/
def Obligations.StepKeepsTheInvariant : Prop :=
  ∀ s t : State, Inv s → step s = .next t → Inv t

/-- R36: the machine meets `Inv` right after reset. -/
def Obligations.ResetMeetsTheInvariant : Prop :=
  Inv State.reset
end

