-- ==== Sys2Proof/Laws/Memory.lean ====
section
/-! SUPPORT. The laws of the buffer memories: what a read gives after a write, that every write keeps the canonical form
and stays inside the space, and that the canonical form determines the memory (spec/20_memory.md R51, R58). -/

namespace Sys2Proof.Machine

variable {w : Nat}

/-! ## One write -/

theorem Memory.read?_write (m : Memory w) (i : Nat) (v : BitVec w) (a : Nat) :
    Memory.read? (Memory.write m i v) a = if a = i then some v else Memory.read? m a := by
  induction m with
  | nil => simp [Memory.write, Memory.read?]
  | cons p rest ih =>
    obtain ⟨j, u⟩ := p
    simp only [Memory.write]
    split
    · simp [Memory.read?]
    · split
      · next h => subst h; simp only [Memory.read?]; split <;> rfl
      · simp only [Memory.read?, ih]; split_ifs <;> first | rfl | omega

theorem Memory.mem_write {m : Memory w} {i : Nat} {v : BitVec w} {e : Nat × BitVec w}
    (h : e ∈ Memory.write m i v) : e = (i, v) ∨ e ∈ m := by
  induction m with
  | nil => simpa [Memory.write] using h
  | cons p rest ih =>
    obtain ⟨j, u⟩ := p
    simp only [Memory.write] at h
    split_ifs at h
    · simpa using h
    · rcases List.mem_cons.1 h with h | h
      · exact .inl h
      · exact .inr (List.mem_cons_of_mem _ h)
    · rcases List.mem_cons.1 h with h | h
      · exact .inr (h ▸ List.mem_cons_self ..)
      · rcases ih h with h | h
        · exact .inl h
        · exact .inr (List.mem_cons_of_mem _ h)

theorem Memory.wf_write {m : Memory w} (h : Memory.wf m) (i : Nat) (v : BitVec w) :
    Memory.wf (Memory.write m i v) := by
  induction m with
  | nil => simp [Memory.write]
  | cons p rest ih =>
    obtain ⟨j, u⟩ := p
    obtain ⟨hj, hrest⟩ := List.pairwise_cons.1 h
    simp only [Memory.write]
    split_ifs with h1 h2
    · refine List.pairwise_cons.2 ⟨fun e he => ?_, h⟩
      rcases List.mem_cons.1 he with rfl | he
      · exact h1
      · exact Nat.lt_trans h1 (hj e he)
    · subst h2; exact List.pairwise_cons.2 ⟨hj, hrest⟩
    · refine List.pairwise_cons.2 ⟨fun e he => ?_, ih hrest⟩
      rcases Memory.mem_write he with rfl | he
      · show j < i; omega
      · exact hj e he

theorem Memory.within_write {m : Memory w} {n i : Nat} (h : Memory.within m n) (hi : i < n) (v : BitVec w) :
    Memory.within (Memory.write m i v) n := fun e he => by
  rcases Memory.mem_write he with rfl | he
  · exact hi
  · exact h e he

/-! ## Several writes -/

@[simp] theorem Memory.writeAll_nil (m : Memory w) : Memory.writeAll m [] = m := rfl

@[simp] theorem Memory.writeAll_cons (m : Memory w) (p : Nat × BitVec w) (ps : List (Nat × BitVec w)) :
    Memory.writeAll m (p :: ps) = Memory.writeAll (Memory.write m p.1 p.2) ps := rfl

theorem Memory.read?_writeAll_of_not_mem (ps : List (Nat × BitVec w)) (m : Memory w) (a : Nat)
    (h : ∀ p ∈ ps, p.1 ≠ a) : Memory.read? (Memory.writeAll m ps) a = Memory.read? m a := by
  induction ps generalizing m with
  | nil => rfl
  | cons p ps ih =>
    rw [Memory.writeAll_cons, ih _ fun q hq => h q (List.mem_cons_of_mem _ hq), Memory.read?_write,
      if_neg (h p (List.mem_cons_self ..)).symm]

/-- An element written with one value only, however often, holds that value afterwards. -/
theorem Memory.read?_writeAll_of_mem (ps : List (Nat × BitVec w)) (m : Memory w) (a : Nat) (v : BitVec w)
    (hm : ∃ p ∈ ps, p.1 = a) (hv : ∀ p ∈ ps, p.1 = a → p.2 = v) :
    Memory.read? (Memory.writeAll m ps) a = some v := by
  induction ps generalizing m with
  | nil => simp at hm
  | cons p ps ih =>
    rw [Memory.writeAll_cons]
    have hv' : ∀ q ∈ ps, q.1 = a → q.2 = v := fun q hq => hv q (List.mem_cons_of_mem _ hq)
    by_cases hin : ∃ q ∈ ps, q.1 = a
    · exact ih _ hin hv'
    · have hnot : ∀ q ∈ ps, q.1 ≠ a := fun q hq he => hin ⟨q, hq, he⟩
      obtain ⟨q, hq, rfl⟩ := hm
      rcases List.mem_cons.1 hq with rfl | hq
      · rw [Memory.read?_writeAll_of_not_mem ps _ _ hnot, Memory.read?_write, if_pos rfl,
          hv q (List.mem_cons_self ..) rfl]
      · exact absurd rfl (hnot q hq)

theorem Memory.wf_writeAll {m : Memory w} (h : Memory.wf m) (ps : List (Nat × BitVec w)) :
    Memory.wf (Memory.writeAll m ps) := by
  induction ps generalizing m with
  | nil => exact h
  | cons p ps ih => exact ih (Memory.wf_write h p.1 p.2)

theorem Memory.within_writeAll {m : Memory w} {n : Nat} (h : Memory.within m n) (ps : List (Nat × BitVec w))
    (hps : ∀ p ∈ ps, p.1 < n) : Memory.within (Memory.writeAll m ps) n := by
  induction ps generalizing m with
  | nil => exact h
  | cons p ps ih =>
    exact ih (Memory.within_write h (hps p (List.mem_cons_self ..)) p.2)
      fun q hq => hps q (List.mem_cons_of_mem _ hq)

/-! ## A run of writes -/

theorem Memory.read?_writeRun (vs : List (BitVec w)) (m : Memory w) (i a : Nat) :
    Memory.read? (Memory.writeRun m i vs) a
      = if i ≤ a ∧ a < i + vs.length then vs[a - i]? else Memory.read? m a := by
  induction vs generalizing m i with
  | nil => simp [Memory.writeRun]
  | cons v vs ih =>
    rw [Memory.writeRun, ih, Memory.read?_write, List.length_cons]
    by_cases h0 : a = i
    · subst h0
      rw [if_neg (by omega), if_pos rfl, if_pos (by omega)]; simp
    · by_cases h1 : i + 1 ≤ a ∧ a < i + 1 + vs.length
      · rw [if_pos h1, if_pos (by omega)]
        obtain ⟨d, rfl⟩ : ∃ d, a = i + 1 + d := ⟨a - (i + 1), by omega⟩
        rw [show i + 1 + d - (i + 1) = d by omega, show i + 1 + d - i = d + 1 by omega,
          List.getElem?_cons_succ]
      · rw [if_neg h1, if_neg h0, if_neg (by omega)]

theorem Memory.wf_writeRun {m : Memory w} (h : Memory.wf m) (vs : List (BitVec w)) (i : Nat) :
    Memory.wf (Memory.writeRun m i vs) := by
  induction vs generalizing m i with
  | nil => exact h
  | cons v vs ih => exact ih (Memory.wf_write h i v) (i + 1)

theorem Memory.within_writeRun {m : Memory w} {n : Nat} (h : Memory.within m n) (vs : List (BitVec w)) (i : Nat)
    (hn : i + vs.length ≤ n) : Memory.within (Memory.writeRun m i vs) n := by
  induction vs generalizing m i with
  | nil => exact h
  | cons v vs ih =>
    rw [List.length_cons] at hn
    exact ih (Memory.within_write h (by omega) v) (i + 1) (by omega)

/-! ## The canonical form -/

theorem Memory.read?_eq_none_of_lt {m : Memory w} {a : Nat} (h : ∀ e ∈ m, a < e.1) : Memory.read? m a = none := by
  induction m with
  | nil => rfl
  | cons p rest ih =>
    have h0 := h p (List.mem_cons_self ..)
    rw [Memory.read?, if_neg (by omega)]
    exact ih fun e he => h e (List.mem_cons_of_mem _ he)

/-- Two canonical memories that read alike are equal data. -/
theorem Memory.ext_of_wf {m n : Memory w} (hm : Memory.wf m) (hn : Memory.wf n)
    (h : ∀ a, Memory.read? m a = Memory.read? n a) : m = n := by
  induction m generalizing n with
  | nil =>
    cases n with
    | nil => rfl
    | cons q _ => have := h q.1; simp [Memory.read?] at this
  | cons p m ih =>
    cases n with
    | nil => have := h p.1; simp [Memory.read?] at this
    | cons q n =>
      obtain ⟨i, u⟩ := p
      obtain ⟨j, v⟩ := q
      obtain ⟨hi, hm'⟩ := List.pairwise_cons.1 hm
      obtain ⟨hj, hn'⟩ := List.pairwise_cons.1 hn
      have below_m : ∀ a, a < i → Memory.read? ((i, u) :: m) a = none := fun a ha =>
        Memory.read?_eq_none_of_lt fun e he => by
          rcases List.mem_cons.1 he with rfl | he
          · exact ha
          · exact Nat.lt_trans ha (hi e he)
      have below_n : ∀ a, a < j → Memory.read? ((j, v) :: n) a = none := fun a ha =>
        Memory.read?_eq_none_of_lt fun e he => by
          rcases List.mem_cons.1 he with rfl | he
          · exact ha
          · exact Nat.lt_trans ha (hj e he)
      have hij : i = j := by
        rcases Nat.lt_trichotomy i j with hlt | heq | hgt
        · have := (h i).trans (below_n i hlt); simp [Memory.read?] at this
        · exact heq
        · have := (h j).symm.trans (below_m j hgt); simp [Memory.read?] at this
      subst hij
      have huv : u = v := by simpa [Memory.read?] using h i
      subst huv
      refine congrArg ((i, u) :: ·) (ih hm' hn' fun a => ?_)
      by_cases ha : a = i
      · subst ha
        rw [Memory.read?_eq_none_of_lt hi, Memory.read?_eq_none_of_lt hj]
      · simpa [Memory.read?, ha] using h a

/-! ## Reset -/

theorem State.reset_memories_wf :
    Memory.wf State.reset.pixIn ∧ Memory.wf State.reset.smpIn ∧ Memory.wf State.reset.pixOut ∧
      Memory.wf State.reset.smpOut := by decide

end Sys2Proof.Machine
end

