-- ==== Sys2Proof/Laws/State.lean ====
section
/-! SUPPORT. One lemma per field per named update of the state, so that no proof unfolds a record update. -/

namespace Sys2Proof.Machine

/-! ## `raise` -/

@[simp] theorem raise_height (e : CommandError) (s : State) :
    (raise e s).height = s.height := rfl
@[simp] theorem raise_width (e : CommandError) (s : State) :
    (raise e s).width = s.width := rfl
@[simp] theorem raise_channels (e : CommandError) (s : State) :
    (raise e s).channels = s.channels := rfl
@[simp] theorem raise_nsamples (e : CommandError) (s : State) :
    (raise e s).nsamples = s.nsamples := rfl
@[simp] theorem raise_theight (e : CommandError) (s : State) :
    (raise e s).theight = s.theight := rfl
@[simp] theorem raise_twidth (e : CommandError) (s : State) :
    (raise e s).twidth = s.twidth := rfl
@[simp] theorem raise_capacity (e : CommandError) (s : State) :
    (raise e s).capacity = s.capacity := rfl
@[simp] theorem raise_nslots (e : CommandError) (s : State) :
    (raise e s).nslots = s.nslots := rfl
@[simp] theorem raise_status (e : CommandError) (s : State) :
    (raise e s).status = 0x03#8 := rfl
@[simp] theorem raise_errcode (e : CommandError) (s : State) :
    (raise e s).errcode = errorCode e := rfl
@[simp] theorem raise_pixIn (e : CommandError) (s : State) :
    (raise e s).pixIn = s.pixIn := rfl
@[simp] theorem raise_smpIn (e : CommandError) (s : State) :
    (raise e s).smpIn = s.smpIn := rfl
@[simp] theorem raise_pixOut (e : CommandError) (s : State) :
    (raise e s).pixOut = s.pixOut := rfl
@[simp] theorem raise_smpOut (e : CommandError) (s : State) :
    (raise e s).smpOut = s.smpOut := rfl
@[simp] theorem raise_pending (e : CommandError) (s : State) :
    (raise e s).pending = s.pending := rfl
@[simp] theorem raise_reply (e : CommandError) (s : State) :
    (raise e s).reply = s.reply := rfl
@[simp] theorem raise_epoch (e : CommandError) (s : State) :
    (raise e s).epoch = s.epoch := rfl

/-! ## `complete` -/

@[simp] theorem complete_height (s : State) :
    (complete s).height = s.height := rfl
@[simp] theorem complete_width (s : State) :
    (complete s).width = s.width := rfl
@[simp] theorem complete_channels (s : State) :
    (complete s).channels = s.channels := rfl
@[simp] theorem complete_nsamples (s : State) :
    (complete s).nsamples = s.nsamples := rfl
@[simp] theorem complete_theight (s : State) :
    (complete s).theight = s.theight := rfl
@[simp] theorem complete_twidth (s : State) :
    (complete s).twidth = s.twidth := rfl
@[simp] theorem complete_capacity (s : State) :
    (complete s).capacity = s.capacity := rfl
@[simp] theorem complete_nslots (s : State) :
    (complete s).nslots = s.nslots := rfl
@[simp] theorem complete_status (s : State) :
    (complete s).status = 0x01#8 := rfl
@[simp] theorem complete_errcode (s : State) :
    (complete s).errcode = 0 := rfl
@[simp] theorem complete_pixIn (s : State) :
    (complete s).pixIn = s.pixIn := rfl
@[simp] theorem complete_smpIn (s : State) :
    (complete s).smpIn = s.smpIn := rfl
@[simp] theorem complete_pixOut (s : State) :
    (complete s).pixOut = s.pixOut := rfl
@[simp] theorem complete_smpOut (s : State) :
    (complete s).smpOut = s.smpOut := rfl
@[simp] theorem complete_pending (s : State) :
    (complete s).pending = s.pending := rfl
@[simp] theorem complete_reply (s : State) :
    (complete s).reply = s.reply := rfl
@[simp] theorem complete_epoch (s : State) :
    (complete s).epoch = s.epoch := rfl

/-! ## `writeResults` -/

@[simp] theorem writeResults_height (th tw cap n : Nat) (s : State) :
    (writeResults th tw cap n s).height = s.height := rfl
@[simp] theorem writeResults_width (th tw cap n : Nat) (s : State) :
    (writeResults th tw cap n s).width = s.width := rfl
@[simp] theorem writeResults_channels (th tw cap n : Nat) (s : State) :
    (writeResults th tw cap n s).channels = s.channels := rfl
@[simp] theorem writeResults_nsamples (th tw cap n : Nat) (s : State) :
    (writeResults th tw cap n s).nsamples = s.nsamples := rfl
@[simp] theorem writeResults_theight (th tw cap n : Nat) (s : State) :
    (writeResults th tw cap n s).theight = BitVec.ofNat 16 th := rfl
@[simp] theorem writeResults_twidth (th tw cap n : Nat) (s : State) :
    (writeResults th tw cap n s).twidth = BitVec.ofNat 16 tw := rfl
@[simp] theorem writeResults_capacity (th tw cap n : Nat) (s : State) :
    (writeResults th tw cap n s).capacity = BitVec.ofNat 32 cap := rfl
@[simp] theorem writeResults_nslots (th tw cap n : Nat) (s : State) :
    (writeResults th tw cap n s).nslots = BitVec.ofNat 34 n := rfl
@[simp] theorem writeResults_status (th tw cap n : Nat) (s : State) :
    (writeResults th tw cap n s).status = s.status := rfl
@[simp] theorem writeResults_errcode (th tw cap n : Nat) (s : State) :
    (writeResults th tw cap n s).errcode = s.errcode := rfl
@[simp] theorem writeResults_pixIn (th tw cap n : Nat) (s : State) :
    (writeResults th tw cap n s).pixIn = s.pixIn := rfl
@[simp] theorem writeResults_smpIn (th tw cap n : Nat) (s : State) :
    (writeResults th tw cap n s).smpIn = s.smpIn := rfl
@[simp] theorem writeResults_pixOut (th tw cap n : Nat) (s : State) :
    (writeResults th tw cap n s).pixOut = s.pixOut := rfl
@[simp] theorem writeResults_smpOut (th tw cap n : Nat) (s : State) :
    (writeResults th tw cap n s).smpOut = s.smpOut := rfl
@[simp] theorem writeResults_pending (th tw cap n : Nat) (s : State) :
    (writeResults th tw cap n s).pending = s.pending := rfl
@[simp] theorem writeResults_reply (th tw cap n : Nat) (s : State) :
    (writeResults th tw cap n s).reply = s.reply := rfl
@[simp] theorem writeResults_epoch (th tw cap n : Nat) (s : State) :
    (writeResults th tw cap n s).epoch = s.epoch := rfl

/-! ## `writePlan` -/

@[simp] theorem writePlan_height (p : Plan) (s : State) :
    (writePlan p s).height = s.height := rfl
@[simp] theorem writePlan_width (p : Plan) (s : State) :
    (writePlan p s).width = s.width := rfl
@[simp] theorem writePlan_channels (p : Plan) (s : State) :
    (writePlan p s).channels = s.channels := rfl
@[simp] theorem writePlan_nsamples (p : Plan) (s : State) :
    (writePlan p s).nsamples = s.nsamples := rfl
@[simp] theorem writePlan_theight (p : Plan) (s : State) :
    (writePlan p s).theight = BitVec.ofNat 16 p.th := rfl
@[simp] theorem writePlan_twidth (p : Plan) (s : State) :
    (writePlan p s).twidth = BitVec.ofNat 16 p.tw := rfl
@[simp] theorem writePlan_capacity (p : Plan) (s : State) :
    (writePlan p s).capacity = BitVec.ofNat 32 p.cap := rfl
@[simp] theorem writePlan_nslots (p : Plan) (s : State) :
    (writePlan p s).nslots = BitVec.ofNat 34 p.nslots := rfl
@[simp] theorem writePlan_status (p : Plan) (s : State) :
    (writePlan p s).status = s.status := rfl
@[simp] theorem writePlan_errcode (p : Plan) (s : State) :
    (writePlan p s).errcode = s.errcode := rfl
@[simp] theorem writePlan_pixIn (p : Plan) (s : State) :
    (writePlan p s).pixIn = s.pixIn := rfl
@[simp] theorem writePlan_smpIn (p : Plan) (s : State) :
    (writePlan p s).smpIn = s.smpIn := rfl
@[simp] theorem writePlan_pixOut (p : Plan) (s : State) :
    (writePlan p s).pixOut = s.pixOut := rfl
@[simp] theorem writePlan_smpOut (p : Plan) (s : State) :
    (writePlan p s).smpOut = s.smpOut := rfl
@[simp] theorem writePlan_pending (p : Plan) (s : State) :
    (writePlan p s).pending = s.pending := rfl
@[simp] theorem writePlan_reply (p : Plan) (s : State) :
    (writePlan p s).reply = s.reply := rfl
@[simp] theorem writePlan_epoch (p : Plan) (s : State) :
    (writePlan p s).epoch = s.epoch := rfl

/-! ## `applyReset` -/

@[simp] theorem applyReset_height (s : State) :
    (applyReset s).height = 0 := rfl
@[simp] theorem applyReset_width (s : State) :
    (applyReset s).width = 0 := rfl
@[simp] theorem applyReset_channels (s : State) :
    (applyReset s).channels = 0 := rfl
@[simp] theorem applyReset_nsamples (s : State) :
    (applyReset s).nsamples = 0 := rfl
@[simp] theorem applyReset_theight (s : State) :
    (applyReset s).theight = 0 := rfl
@[simp] theorem applyReset_twidth (s : State) :
    (applyReset s).twidth = 0 := rfl
@[simp] theorem applyReset_capacity (s : State) :
    (applyReset s).capacity = 0 := rfl
@[simp] theorem applyReset_nslots (s : State) :
    (applyReset s).nslots = 0 := rfl
@[simp] theorem applyReset_status (s : State) :
    (applyReset s).status = 0 := rfl
@[simp] theorem applyReset_errcode (s : State) :
    (applyReset s).errcode = 0 := rfl
@[simp] theorem applyReset_pixIn (s : State) :
    (applyReset s).pixIn = [] := rfl
@[simp] theorem applyReset_smpIn (s : State) :
    (applyReset s).smpIn = [] := rfl
@[simp] theorem applyReset_pixOut (s : State) :
    (applyReset s).pixOut = [] := rfl
@[simp] theorem applyReset_smpOut (s : State) :
    (applyReset s).smpOut = [] := rfl
@[simp] theorem applyReset_pending (s : State) :
    (applyReset s).pending = s.pending := rfl
@[simp] theorem applyReset_reply (s : State) :
    (applyReset s).reply = s.reply := rfl
@[simp] theorem applyReset_epoch (s : State) :
    (applyReset s).epoch = s.epoch + 1 := rfl

/-! ## The flags after an error and after a success -/

@[simp] theorem raise_done (e : CommandError) (s : State) : (raise e s).done = true := by
  show (0x03#8).getLsbD 0 = true; decide
@[simp] theorem raise_err (e : CommandError) (s : State) : (raise e s).err = true := by
  show (0x03#8).getLsbD 1 = true; decide
@[simp] theorem complete_done (s : State) : (complete s).done = true := by
  show (0x01#8).getLsbD 0 = true; decide
@[simp] theorem complete_err (s : State) : (complete s).err = false := by
  show (0x01#8).getLsbD 1 = false; decide

/-- Every error has a code from 1 to 4. -/
theorem errorCode_range (e : CommandError) : errorCode e ≠ 0 ∧ (errorCode e).toNat ≤ 4 := by
  cases e <;> decide

end Sys2Proof.Machine
end

