-- ==== Sys2Proof/Laws/Planner.lean ====
section
/-! SUPPORT. The planner: what trimming gives, that every result fits its register (spec/10_state.md R27), and what the
PLAN commands answer. -/

namespace Sys2Proof.Machine

/-! ## Trimming -/

theorem trim_le (n d : Nat) : trim n d ≤ n := Nat.sub_le ..

theorem trim_mod (n d : Nat) : trim n d % d = 0 := by
  have h := Nat.div_add_mod n d
  have : trim n d = d * (n / d) := by unfold trim; omega
  rw [this]; exact Nat.mul_mod_right ..

theorem lt_trim_add {n d : Nat} (hd : 0 < d) : n < trim n d + d := by
  have := Nat.mod_lt n hd
  have := Nat.mod_le n d
  unfold trim; omega

@[simp] theorem trim_one (n : Nat) : trim n 1 = n := by simp [trim, Nat.mod_one]

/-! ## Plans -/

theorem plan_th (m : Mode) (h w : Nat) : (plan m h w).th = trim h (hdivOf m) := by
  cases m <;> simp [plan, planExact16, planPacked12, hdivOf]

theorem plan_tw (m : Mode) (h w : Nat) : (plan m h w).tw = trim w (wdivOf m) := by
  cases m <;> simp [plan, planExact16, planPacked12, wdivOf]

theorem plan_nslots (m : Mode) (h w : Nat) : (plan m h w).nslots = (plan m h w).th * (plan m h w).tw * 3 := by
  cases m <;> rfl

theorem plan_cap_le (m : Mode) (h w : Nat) : (plan m h w).cap ≤ (plan m h w).th * (plan m h w).tw := by
  cases m
  · show trim h 2 * trim w 4 * 3 / 8 ≤ trim h 2 * trim w 4; omega
  · show h * (trim w 2 / 2) ≤ h * trim w 2
    exact Nat.mul_le_mul_left _ (Nat.div_le_self ..)

/-- The four results of a plan fit their registers (R27). -/
theorem planOf_fits (m : Mode) (s : State) :
    (planOf m s).th < 2 ^ 16 ∧ (planOf m s).tw < 2 ^ 16 ∧ (planOf m s).cap < 2 ^ 32 ∧ (planOf m s).nslots < 2 ^ 34 := by
  have hh : s.height.toNat < 65536 := s.height.isLt
  have hw : s.width.toNat < 65536 := s.width.isLt
  have h1 : (planOf m s).th ≤ s.height.toNat := plan_th m _ _ ▸ trim_le ..
  have h2 : (planOf m s).tw ≤ s.width.toNat := plan_tw m _ _ ▸ trim_le ..
  have h3 : (planOf m s).cap ≤ (planOf m s).th * (planOf m s).tw := plan_cap_le ..
  have h4 : (planOf m s).nslots = (planOf m s).th * (planOf m s).tw * 3 := plan_nslots ..
  have h5 : (planOf m s).th * (planOf m s).tw ≤ 65535 * 65535 := Nat.mul_le_mul (by omega) (by omega)
  omega

/-- After the write of the results, the registers read as the plan's numbers. -/
theorem writePlan_toNat (m : Mode) (s t : State) :
    (writePlan (planOf m s) t).theight.toNat = (planOf m s).th ∧
    (writePlan (planOf m s) t).twidth.toNat = (planOf m s).tw ∧
    (writePlan (planOf m s) t).capacity.toNat = (planOf m s).cap ∧
    (writePlan (planOf m s) t).nslots.toNat = (planOf m s).nslots := by
  obtain ⟨h1, h2, h3, h4⟩ := planOf_fits m s
  simp only [writePlan_theight, writePlan_twidth, writePlan_capacity, writePlan_nslots, BitVec.toNat_ofNat]
  exact ⟨Nat.mod_eq_of_lt h1, Nat.mod_eq_of_lt h2, Nat.mod_eq_of_lt h3, Nat.mod_eq_of_lt h4⟩

/-! ## The checks and the commands -/

theorem zeroDimension_eq_false {s : State} : zeroDimension s = false ↔ PlanReady s := by
  simp [zeroDimension, PlanReady]

theorem zeroDimension_eq_true {s : State} : zeroDimension s = true ↔ ¬ PlanReady s := by
  rw [← zeroDimension_eq_false, Bool.not_eq_false]

theorem supportedShape_eq_true {s : State} : supportedShape s = true ↔ s.channels = 1 ∨ s.channels = 3 := by
  simp [supportedShape]

theorem exec_planInstr (m : Mode) (s : State) : exec (planInstr m) s = planCommand m s := by cases m <;> rfl

theorem planCommand_of_ready {m : Mode} {s : State} (h : PlanReady s) :
    planCommand m s = .next (complete (writePlan (planOf m s) s)) := by
  simp [planCommand, zeroDimension_eq_false.2 h]

/-- All that a PLAN command can answer. -/
theorem planCommand_cases (m : Mode) (s : State) :
    (¬ PlanReady s ∧ planCommand m s = .next (raise .preconditionViolated s)) ∨
    (PlanReady s ∧ planCommand m s = .next (complete (writePlan (planOf m s) s))) := by
  by_cases h : PlanReady s
  · exact .inr ⟨h, planCommand_of_ready h⟩
  · exact .inl ⟨h, by simp [planCommand, zeroDimension_eq_true.2 h]⟩

end Sys2Proof.Machine
end

