-- ==== Sys2Proof/Laws/Codec.lean ====
section
/-! SUPPORT. The codec: what the slot loops write, and all that the ENC and DEC commands can answer. -/

namespace Sys2Proof.Machine

/-! ## The slot loops -/

theorem asr16_asr16 (p : Sample) (a b : Nat) : asr16 (asr16 p a) b = asr16 p (a + b) := by
  simp [asr16, BitVec.sshiftRight_add]

@[simp] theorem asr16_zero (p : Sample) : asr16 p 0 = p := by simp [asr16]

/-- The writes of the slot loop: one per slot, with the sample shifted right by twice the slot's place in the loop. -/
theorem mem_packLoop {cell : Nat → Nat × Byte} {q : Nat × Byte} (n k : Nat) (v : Sample) :
    q ∈ packLoop cell k n v ↔
      ∃ j < n, q = ((cell (k + j)).1, pack (quantise (cell (k + j)).2) (lowDigit (asr16 v (2 * j)))) := by
  induction n generalizing k v with
  | zero => simp [packLoop]
  | succ n ih =>
    rw [packLoop, List.mem_cons, ih]
    constructor
    · rintro (h | ⟨j, hj, h⟩)
      · exact ⟨0, by omega, by simpa using h⟩
      · refine ⟨j + 1, by omega, ?_⟩
        rw [asr16_asr16] at h
        rw [h, show k + 1 + j = k + (j + 1) by omega, show 2 + 2 * j = 2 * (j + 1) by omega]
    · rintro ⟨j, hj, h⟩
      rcases j with _ | j
      · exact .inl (by simpa using h)
      · refine .inr ⟨j, by omega, ?_⟩
        rw [h, asr16_asr16, show k + 1 + j = k + (j + 1) by omega, show 2 + 2 * j = 2 * (j + 1) by omega]

theorem mem_encWritesExact16 {p : Plan} {s : State} {q : Nat × Byte} :
    q ∈ encWritesExact16 p s ↔ ∃ g < p.cap, ∃ k < 8,
      q = ((cellExact16 s p.tw g k).1,
        pack (quantise (cellExact16 s p.tw g k).2) (lowDigit (asr16 (sampleFor s g) (2 * k)))) := by
  simp only [encWritesExact16, List.mem_flatMap, List.mem_range, mem_packLoop, Nat.zero_add, slotsOf]

theorem mem_encWritesPacked12 {p : Plan} {s : State} {q : Nat × Byte} :
    q ∈ encWritesPacked12 p s ↔ ∃ row < p.th, ∃ pair < p.tw / 2, ∃ k < 6,
      q = ((cellPacked12 s p.tw row pair k).1,
        pack (quantise (cellPacked12 s p.tw row pair k).2)
          (lowDigit (asr16 (asr16 (sampleFor s (row * (p.tw / 2) + pair)) 4) (2 * k)))) := by
  simp only [encWritesPacked12, List.mem_flatMap, List.mem_range, mem_packLoop, Nat.zero_add, slotsOf, preOf]

theorem mem_decWritesExact16 {p : Plan} {s : State} {q : Nat × Sample} :
    q ∈ decWritesExact16 p s ↔ ∃ g < p.cap, q = (g, accShiftAdd (digitExact16 s p.tw g) 8 0) := by
  simp only [decWritesExact16, List.mem_map, List.mem_range, slotsOf, eq_comm]

theorem mem_decWritesPacked12 {p : Plan} {s : State} {q : Nat × Sample} :
    q ∈ decWritesPacked12 p s ↔ ∃ row < p.th, ∃ pair < p.tw / 2,
      q = (row * (p.tw / 2) + pair, shl16 (accAddShift (digitPacked12 s row pair) 6 0) 2) := by
  simp only [decWritesPacked12, List.mem_flatMap, List.mem_map, List.mem_range, slotsOf, eq_comm]

@[simp] theorem accShiftAdd_zero (d : Nat → Digit) (acc : Sample) : accShiftAdd d 0 acc = acc := rfl

@[simp] theorem accShiftAdd_succ (d : Nat → Digit) (n : Nat) (acc : Sample) :
    accShiftAdd d (n + 1) acc = accShiftAdd d n (shl16 acc 2 + (d n).setWidth 16) := rfl

@[simp] theorem accAddShift_zero (d : Nat → Digit) (acc : Sample) : accAddShift d 0 acc = acc := rfl

@[simp] theorem accAddShift_succ (d : Nat → Digit) (n : Nat) (acc : Sample) :
    accAddShift d (n + 1) acc = accAddShift d n (shl16 (acc + (d n).setWidth 16) 2) := rfl

/-! ## The commands -/

/-- The writes of the ENC command of a mode. -/
def encWrites (m : Mode) (s : State) : List (Nat × Byte) :=
  match m with
  | .exact16 => encWritesExact16 (planOf .exact16 s) s
  | .packed12 => encWritesPacked12 (planOf .packed12 s) s

/-- The writes of the DEC command of a mode. -/
def decWrites (m : Mode) (s : State) : List (Nat × Sample) :=
  match m with
  | .exact16 => decWritesExact16 (planOf .exact16 s) s
  | .packed12 => decWritesPacked12 (planOf .packed12 s) s

/-- The state a successful ENC leaves. -/
def encoded (m : Mode) (s : State) : State :=
  complete { writePlan (planOf m s) s with pixOut := Memory.writeAll s.pixOut (encWrites m s) }

/-- The state a successful DEC leaves. -/
def decoded (m : Mode) (s : State) : State :=
  complete { writePlan (planOf m s) s with smpOut := Memory.writeAll s.smpOut (decWrites m s) }

theorem exec_encInstr (m : Mode) (s : State) :
    exec (encInstr m) s = encodeCommand (planOf m s) (encWrites m s) s := by cases m <;> rfl

theorem exec_decInstr (m : Mode) (s : State) :
    exec (decInstr m) s = decodeCommand (planOf m s) (decWrites m s) s := by cases m <;> rfl

theorem exec_encInstr_of_ready {m : Mode} {s : State} (h : EncReady s) :
    exec (encInstr m) s = .next (encoded m s) := by
  rw [exec_encInstr, encodeCommand, supportedShape_eq_true.2 h.1, zeroDimension_eq_false.2 h.2]; rfl

theorem exec_decInstr_of_ready {m : Mode} {s : State} (h : DecReady s) :
    exec (decInstr m) s = .next (decoded m s) := by
  have hc : s.channels = 3#8 := h.1
  simp [exec_decInstr, decodeCommand, zeroDimension_eq_false.2 h.2, hc, decoded]

/-- All that an ENC command can answer. -/
theorem exec_encInstr_cases (m : Mode) (s : State) :
    (¬ (s.channels = 1 ∨ s.channels = 3) ∧ exec (encInstr m) s = .next (raise .unsupportedCarrierShape s)) ∨
    ((s.channels = 1 ∨ s.channels = 3) ∧ ¬ PlanReady s ∧
      exec (encInstr m) s = .next (raise .preconditionViolated s)) ∨
    (EncReady s ∧ exec (encInstr m) s = .next (encoded m s)) := by
  by_cases hc : s.channels = 1 ∨ s.channels = 3
  · by_cases hp : PlanReady s
    · exact .inr (.inr ⟨⟨hc, hp⟩, exec_encInstr_of_ready ⟨hc, hp⟩⟩)
    · refine .inr (.inl ⟨hc, hp, ?_⟩)
      rw [exec_encInstr, encodeCommand, supportedShape_eq_true.2 hc, zeroDimension_eq_true.2 hp]; rfl
  · have hs : supportedShape s = false := by
      rw [← Bool.not_eq_true, supportedShape_eq_true]; exact hc
    refine .inl ⟨hc, ?_⟩
    rw [exec_encInstr, encodeCommand, hs]; rfl

/-- All that a DEC command can answer. -/
theorem exec_decInstr_cases (m : Mode) (s : State) :
    (¬ DecReady s ∧ exec (decInstr m) s = .next (raise .malformedCarrier s)) ∨
    (DecReady s ∧ exec (decInstr m) s = .next (decoded m s)) := by
  by_cases h : DecReady s
  · exact .inr ⟨h, exec_decInstr_of_ready h⟩
  · refine .inl ⟨h, ?_⟩
    have : (decide (s.channels ≠ 3#8) || zeroDimension s) = true := by
      by_contra hn
      rw [Bool.not_eq_true, Bool.or_eq_false_iff, zeroDimension_eq_false] at hn
      exact h ⟨by simpa using hn.1, hn.2⟩
    rw [exec_decInstr, decodeCommand, if_pos this]

/-- Every command is the PLAN, the ENC or the DEC of a mode. -/
theorem instr_cases (i : Instr) : ∃ m, i = planInstr m ∨ i = encInstr m ∨ i = decInstr m := by
  cases i
  · exact ⟨.exact16, .inl rfl⟩
  · exact ⟨.exact16, .inr (.inl rfl)⟩
  · exact ⟨.exact16, .inr (.inr rfl)⟩
  · exact ⟨.packed12, .inl rfl⟩
  · exact ⟨.packed12, .inr (.inl rfl)⟩
  · exact ⟨.packed12, .inr (.inr rfl)⟩

/-- All that a command can answer: an error, or a success that writes the plan and perhaps one output buffer. -/
theorem exec_cases (i : Instr) (s : State) :
    (∃ e, exec i s = .next (raise e s)) ∨
    (∃ m, i = planInstr m ∧ PlanReady s ∧ exec i s = .next (complete (writePlan (planOf m s) s))) ∨
    (∃ m, i = encInstr m ∧ EncReady s ∧ exec i s = .next (encoded m s)) ∨
    (∃ m, i = decInstr m ∧ DecReady s ∧ exec i s = .next (decoded m s)) := by
  obtain ⟨m, rfl | rfl | rfl⟩ := instr_cases i
  · rcases planCommand_cases m s with ⟨_, h⟩ | ⟨hr, h⟩
    · exact .inl ⟨_, (exec_planInstr m s).trans h⟩
    · exact .inr (.inl ⟨m, rfl, hr, (exec_planInstr m s).trans h⟩)
  · rcases exec_encInstr_cases m s with ⟨_, h⟩ | ⟨_, _, h⟩ | ⟨hr, h⟩
    · exact .inl ⟨_, h⟩
    · exact .inl ⟨_, h⟩
    · exact .inr (.inr (.inl ⟨m, rfl, hr, h⟩))
  · rcases exec_decInstr_cases m s with ⟨_, h⟩ | ⟨hr, h⟩
    · exact .inl ⟨_, h⟩
    · exact .inr (.inr (.inr ⟨m, rfl, hr, h⟩))

end Sys2Proof.Machine
end

