-- ==== Sys2Proof/Laws/HostPort.lean ====
section
/-! SUPPORT. What a write to CMD and a step can answer, said once. -/

namespace Sys2Proof.Machine

/-- All that a write to CMD can answer: the decoded command's outcome, or `IllegalCommand`. -/
theorem runCommandWord_cases (c : CommandWord) (s : State) :
    (∃ i, decode c = .ok i ∧ runCommandWord c s = exec i s) ∨
    (∃ e, decode c = .error e ∧ runCommandWord c s = .next (raise .illegalCommand s)) := by
  unfold runCommandWord
  cases decode c with
  | ok i => exact .inl ⟨i, rfl, rfl⟩
  | error e => exact .inr ⟨e, rfl, rfl⟩

/-- A host write to a register other than CMD is `writeReg`. -/
theorem hostSet_of_ne_cmd (s : State) (r : Reg) (v : BitVec r.bits) (h : r ≠ .cmd) :
    hostSet s r v = .next (writeReg s r v) := by
  cases r <;> first | rfl | exact absurd rfl h

@[simp] theorem runFits_eq_true {i count n : Nat} : runFits i count n = true ↔ i + count ≤ n := by simp [runFits]

theorem step_nil {s : State} (h : s.pending = []) : step s = .next s := by unfold step; rw [h]

theorem step_cons {s : State} {a : HostAction} {rest : List HostAction} (h : s.pending = a :: rest) :
    step s = hostAct a { s with pending := rest } := by unfold step; rw [h]

/-- All that a step that goes on can have done. -/
theorem step_cases {s t : State} (h : step s = .next t) :
    (s.pending = [] ∧ t = s) ∨ ∃ a rest, s.pending = a :: rest ∧ hostAct a { s with pending := rest } = .next t := by
  cases hp : s.pending with
  | nil => rw [step_nil hp] at h; cases h; exact .inl ⟨rfl, rfl⟩
  | cons a rest => rw [step_cons hp] at h; exact .inr ⟨a, rest, rfl, h⟩

end Sys2Proof.Machine
end

