-- ==== Sys2Proof/Laws/PerInstr.lean ====
section
/-! SUPPORT. The per-command family LegalWord: the word of a command has RSV 00000, its OP field is no reserved
operation, and its bit M spells the command's mode (spec/30_encoding.md R81). -/

namespace Sys2Proof.Laws.LegalWord

/-- The word of the command is well formed and its bit M is 1 exactly in PACKED12. -/
def Statement (i : Instr) : Prop :=
  (encode i).WellFormed ∧ ((encode i).getLsbD 2 = true ↔ Machine.modeOf i = .packed12)

theorem planX16 : Statement .planX16 := by unfold Statement; decide
theorem encX16 : Statement .encX16 := by unfold Statement; decide
theorem decX16 : Statement .decX16 := by unfold Statement; decide
theorem planP12 : Statement .planP12 := by unfold Statement; decide
theorem encP12 : Statement .encP12 := by unfold Statement; decide
theorem decP12 : Statement .decP12 := by unfold Statement; decide

end Sys2Proof.Laws.LegalWord
end

