-- ==== Sys2Proof/Tests/Slice0.lean ====
section
/-! SUPPORT. The model's own tests. Expected values come from spec/95_test_vectors.md (the vector is named at each test) or
from the opcode map of spec/30_encoding.md R82; then one witness per statement with hypotheses. -/

namespace Sys2Proof.Tests

open Sys2Proof.Machine

/-! ## Helpers -/

/-- A state with the given operands and input buffers filled from index 0, otherwise as after reset. -/
def loaded (h w c n : Nat) (pix smp : List Nat) : State :=
  { State.reset with
    height := BitVec.ofNat 16 h
    width := BitVec.ofNat 16 w
    channels := BitVec.ofNat 8 c
    nsamples := BitVec.ofNat 32 n
    pixIn := Memory.writeRun [] 0 (pix.map (BitVec.ofNat 8))
    smpIn := Memory.writeRun [] 0 (smp.map (BitVec.ofNat 16)) }

/-- The next state of an outcome. -/
def nextOf : Host.Outcome State Fault Refusal → Option State
  | .next s => some s
  | .fault _ => none
  | .refused _ => none

/-- THEIGHT, TWIDTH, CAPACITY, NSLOTS, STATUS, ERRCODE after a command. -/
def results (o : Host.Outcome State Fault Refusal) : Option (List Nat) :=
  (nextOf o).map fun t =>
    [t.theight.toNat, t.twidth.toNat, t.capacity.toNat, t.nslots.toNat, t.status.toNat, t.errcode.toNat]

/-- The listed elements of PIX_OUT after a command. -/
def pixels (o : Host.Outcome State Fault Refusal) : Option (List Nat) :=
  (nextOf o).map fun t => t.pixOut.map fun e => e.2.toNat

/-- The listed elements of SMP_OUT after a command. -/
def samples (o : Host.Outcome State Fault Refusal) : Option (List Nat) :=
  (nextOf o).map fun t => t.smpOut.map fun e => e.2.toNat

/-! ## Well-formedness and decoding (R81, R82) -/

theorem test_word_with_rsv_is_ill_formed : ¬ CommandWord.WellFormed 0x81#8 := by decide
theorem test_word_with_op_11_is_ill_formed : ¬ CommandWord.WellFormed 0x03#8 := by decide
theorem test_command_words_are_well_formed : CommandWord.WellFormed 0x06#8 ∧ CommandWord.WellFormed 0x00#8 := by decide

-- R82, RSV ‖ M ‖ OP written out
theorem test_decode_plan_x16 : decode (0b00000#5 ++ 0b0#1 ++ 0b00#2) = .ok .planX16 := by decide
theorem test_decode_enc_x16 : decode (0b00000#5 ++ 0b0#1 ++ 0b01#2) = .ok .encX16 := by decide
theorem test_decode_dec_x16 : decode (0b00000#5 ++ 0b0#1 ++ 0b10#2) = .ok .decX16 := by decide
theorem test_decode_plan_p12 : decode (0b00000#5 ++ 0b1#1 ++ 0b00#2) = .ok .planP12 := by decide
theorem test_decode_enc_p12 : decode (0b00000#5 ++ 0b1#1 ++ 0b01#2) = .ok .encP12 := by decide
theorem test_decode_dec_p12 : decode (0b00000#5 ++ 0b1#1 ++ 0b10#2) = .ok .decP12 := by decide
-- T13, the five reserved words
theorem test_decode_reserved :
    decode 0x03#8 = .error .reservedOperation ∧ decode 0x07#8 = .error .reservedOperation ∧
    decode 0x08#8 = .error .reservedBits ∧ decode 0x81#8 = .error .reservedBits ∧
    decode 0xFF#8 = .error .reservedBits := by decide
theorem test_decode_table_word :
    decodeTableWord 8 5 = some .encP12 ∧ decodeTableWord 8 3 = none ∧ decodeTableWord 16 5 = none := by decide
-- P3 steps 1 and 2: the first command after reset
theorem test_first_step_after_reset :
    results (step (State.reset.withFetchWord 8 0x00)) = some [0, 0, 0, 0, 3, 4] ∧
    results (step (State.reset.withFetchWord 8 0x03)) = some [0, 0, 0, 0, 3, 3] ∧
    results (step (State.reset.withFetchWord 8 0x01)) = some [0, 0, 0, 0, 3, 1] ∧
    results (step (State.reset.withFetchWord 8 0x06)) = some [0, 0, 0, 0, 3, 2] := by decide

/-! ## Primitives (T1, T3, T5) -/

theorem test_asr16 :
    asr16 (u16 (-17)) 4 = u16 (-2) ∧ asr16 (u16 15) 4 = 0 ∧ asr16 (u16 (-1234)) 4 = u16 (-78) ∧
    asr16 (u16 (-32768)) 14 = u16 (-2) := by decide
theorem test_s16_shl16 :
    s16 0x8000#16 = -32768 ∧ s16 0xFFFF#16 = -1 ∧ u16 (-1234) = 0xFB2E#16 ∧ s16 (shl16 4095#16 4) = -16 := by decide
theorem test_low_digit : lowDigit (u16 (-1)) = 3#2 ∧ lowDigit (u16 (-2)) = 2#2 ∧ lowDigit (u16 (-78)) = 2#2 := by decide
theorem test_quantise :
    [0, 1, 3, 4, 5, 199, 200, 203, 252, 255].map (fun b => (quantise (BitVec.ofNat 8 b)).toNat)
      = [0, 0, 0, 4, 4, 196, 200, 200, 252, 252] := by decide
theorem test_index_arithmetic :
    [0, 7, 8, 11, 12, 15, 16, 23].map (fun f => ain 5 3 (rowOf 4 f) (colOf 4 f) (chanOf f))
      = [0, 7, 8, 11, 15, 18, 19, 26] ∧
    [0, 7, 8, 11, 12, 15, 16, 23].map (fun f => ain 5 1 (rowOf 4 f) (colOf 4 f) (chanOf f))
      = [0, 2, 2, 3, 5, 6, 6, 8] := by decide

/-! ## The commands -/

-- T2, rows 65535 × 65535 and 1 × 4
theorem test_plan_x16_largest :
    results (exec .planX16 (loaded 65535 65535 0 0 [] [])) = some [65534, 65532, 1610465283, 12883722264, 1, 0] := by decide
theorem test_plan_x16_one_row : results (exec .planX16 (loaded 1 4 0 0 [] [])) = some [0, 4, 0, 0, 1, 0] := by decide
-- T2, rows 65535 × 65535 and 7 × 1
theorem test_plan_p12_largest :
    results (exec .planP12 (loaded 65535 65535 0 0 [] [])) = some [65535, 65534, 2147385345, 12884312070, 1, 0] := by decide
theorem test_plan_p12_one_column : results (exec .planP12 (loaded 7 1 0 0 [] [])) = some [7, 0, 0, 0, 1, 0] := by decide

/-- T7: a gray 3 × 5 carrier, trimmed to 2 × 4, with negative samples. -/
def grayCarrier : State :=
  loaded 3 5 1 3 [1, 14, 27, 40, 53, 66, 79, 92, 105, 118, 131, 144, 157, 170, 183] [0x1234, 0xFFFE, 0x7FFF]

theorem test_enc_x16_gray_trimmed :
    pixels (exec .encX16 grayCarrier) = some
      [0, 1, 3, 12, 14, 12, 25, 24, 26, 43, 43, 43, 67, 67, 67, 79, 79, 79, 95, 95, 95, 107, 107, 105] := by decide

/-- T8: a colour 2 × 4 carrier, five samples for three groups. -/
def colourCarrier : State :=
  loaded 2 4 3 5
    [3, 10, 17, 24, 31, 38, 45, 52, 59, 66, 73, 80, 87, 94, 101, 108, 115, 122, 129, 136, 143, 150, 157, 164]
    [0xFFFF, 0x8000, 12345, 999, 888]

theorem test_enc_x16_truncates :
    pixels (exec .encX16 colourCarrier) = some
      [3, 11, 19, 27, 31, 39, 47, 55, 56, 64, 72, 80, 84, 92, 100, 110, 113, 122, 131, 136, 140, 148, 159, 164] := by
  decide

/-- T9: one colour pixel pair. -/
def onePair : State := loaded 1 2 3 1 [10, 11, 12, 13, 254, 255] [0xFB2E]

theorem test_enc_p12_one_pair :
    pixels (exec .encP12 onePair) = some [10, 8, 15, 14, 255, 255] ∧
    results (exec .encP12 onePair) = some [1, 2, 1, 6, 1, 0] := by decide

-- T10, three samples for two groups
theorem test_enc_p12_gray :
    pixels (exec .encP12 (loaded 1 4 1 3 [7, 77, 177, 255] [0xFFEF, 32767, 5])) = some
      [6, 7, 7, 79, 79, 79, 179, 179, 179, 255, 255, 253] := by decide

/-- T11: a carrier no ENC produced. -/
def foreignCarrier : State := loaded 3 5 3 0 ((List.range 45).map fun i => (5 * i + 2) % 256) []

theorem test_dec_x16_foreign : samples (exec .decX16 foreignCarrier) = some [20046, 14670, 14649] := by decide
-- T11 [C1]: −6944, 20032, −27760, 14640, 20032, −6944
theorem test_dec_p12_foreign :
    samples (exec .decP12 foreignCarrier) = some [58592, 20032, 37776, 14640, 20032, 58592] := by decide

/-- E1: the source's scenario after encoding. -/
def scenarioCarrier : State :=
  loaded 2 4 3 0 ([200, 202, 202, 203, 203] ++ List.replicate 19 200) []

theorem test_dec_x16_scenario : samples (exec .decX16 scenarioCarrier) = some [1000, 0, 0] := by decide
-- T12 [C1]
theorem test_dec_p12_mode_mismatch : samples (exec .decP12 scenarioCarrier) = some [16000, 0, 0, 0] := by decide

-- T13, STATUS and ERRCODE by word, HEIGHT, WIDTH, CHANNELS
theorem test_errors :
    ([(0x01, 2, 4, 0), (0x05, 2, 4, 4), (0x01, 0, 4, 4), (0x01, 0, 4, 3), (0x05, 2, 0, 1), (0x00, 0, 0, 9),
      (0x02, 2, 4, 1), (0x06, 2, 4, 4), (0x02, 0, 4, 3), (0x06, 2, 0, 3), (0x02, 1, 3, 3), (0x01, 1, 3, 3)].map
      fun (c, h, w, ch) => (results (runCommandWord (BitVec.ofNat 8 c) (loaded h w ch 1 [] []))).map (·.drop 4))
    = [[3, 1], [3, 1], [3, 1], [3, 4], [3, 4], [3, 4], [3, 2], [3, 2], [3, 2], [3, 2], [1, 0], [1, 0]].map some := by
  decide

/-! ## The host's side (R32, R35, R95) -/

theorem test_read_only_write_is_ignored : nextOf (hostAct (.set .capacity 7) colourCarrier) = some colourCarrier := by decide
theorem test_cmd_reads_zero :
    (nextOf (hostAct (.get .cmd) colourCarrier)).map (·.reply) = some (some (.register .cmd 0)) := by decide
theorem test_fill_past_the_end_faults :
    ∃ f, hostAct (.fillPixIn (BitVec.ofNat 34 (2 ^ 34 - 1)) [1, 2]) State.reset = .fault f := ⟨.noSuchElement, rfl⟩
theorem test_fill_at_the_end_is_written :
    (nextOf (hostAct (.fillPixIn (BitVec.ofNat 34 (2 ^ 34 - 1)) [7]) State.reset)).map (·.pixIn) = some [(2 ^ 34 - 1, 7)] := by
  decide
theorem test_memory_keeps_the_canonical_form :
    Memory.write (Memory.write (Memory.write [] 5 1#8) 2 3#8) 5 9#8 = [(2, 3#8), (5, 9#8)] := by decide

/-! ## Witnesses: for each statement with hypotheses, a state and operands that meet all of them -/

/-- The gray carrier of T7 as the colour carrier with equal channels (R142), in the first 4 pixels of each row read. -/
def equalChannels : State :=
  loaded 3 5 3 3
    [1, 1, 1, 14, 14, 14, 27, 27, 27, 40, 40, 40, 53, 53, 53, 66, 66, 66, 79, 79, 79, 92, 92, 92, 105, 105, 105,
     118, 118, 118, 131, 131, 131, 144, 144, 144, 157, 157, 157, 170, 170, 170, 183, 183, 183]
    [0x1234, 0xFFFE, 0x7FFF]

theorem witness_DecodingAnEncodedCommandGivesItBack : Instr.WellFormed .planX16 ∧ Instr.WellFormed .decP12 := by decide

theorem witness_StepRunsTheDecodedCommand :
    (∃ s : State, ∃ c i rest, s.pending = HostAction.set .cmd c :: rest ∧ decode c = .ok i) ∧
    (∃ s : State, ∃ c e rest, s.pending = HostAction.set .cmd c :: rest ∧ decode c = .error e) ∧
    ∃ s : State, ∃ a rest, s.pending = a :: rest :=
  ⟨⟨State.reset.withFetchWord 8 6, 6#8, .decP12, [], by decide⟩,
   ⟨State.reset.withFetchWord 8 255, 255#8, .reservedBits, [], by decide⟩,
   ⟨State.reset.withFetchWord 8 6, .set .cmd 6#8, [], by decide⟩⟩

theorem witness_IdleStepChangesNothing : State.reset.pending = [] := rfl

theorem witness_StepStopsOnlyOnAHostRunPastTheEnd :
    (∃ s : State, s.pending = [HostAction.fillPixIn (BitVec.ofNat 34 (2 ^ 34 - 1)) [7]] ∧
      ∀ a rest, s.pending = a :: rest → a.Fits) ∧
    ∃ s : State, ∃ a rest, s.pending = a :: rest ∧ ¬ HostAction.Fits a := by
  constructor
  · refine ⟨{ State.reset with pending := _ }, rfl, ?_⟩
    rintro a rest h
    cases h
    show (BitVec.ofNat 34 (2 ^ 34 - 1)).toNat + 1 ≤ 2 ^ 34
    decide
  · refine ⟨{ State.reset with pending := [.copyPixOut (2 ^ 34 + 1)] }, _, _, rfl, ?_⟩
    show ¬ (2 ^ 34 + 1 ≤ 2 ^ 34)
    decide

theorem witness_ReservedWordRaisesIllegalCommand :
    ¬ CommandWord.WellFormed 0x07#8 ∧ ¬ CommandWord.WellFormed 0x08#8 ∧ ¬ CommandWord.WellFormed 0xFF#8 := by decide

theorem witness_FillWritesARunAndNothingElse :
    (BitVec.ofNat 34 (2 ^ 34 - 2)).toNat + [1#8, 2#8].length ≤ 2 ^ 34 ∧
    (BitVec.ofNat 32 (2 ^ 32 - 1)).toNat + [1#16].length ≤ 2 ^ 32 := by decide

theorem witness_DumpGivesTheElementsInOrder :
    (BitVec.ofNat 34 (2 ^ 34 - 2)).toNat + 2 ≤ 2 ^ 34 ∧ (BitVec.ofNat 32 (2 ^ 32 - 1)).toNat + 1 ≤ 2 ^ 32 := by decide

theorem witness_CopyMovesTheOutputIntoTheInput : 24 ≤ 2 ^ Config.pixAddrBits ∧ 2 ^ 34 ≤ 2 ^ Config.pixAddrBits := by decide

theorem witness_OnlyCommandsAndResetWriteResults :
    ∃ s t : State, ∃ a rest, s.pending = a :: rest ∧ (∀ c, a ≠ HostAction.set .cmd c) ∧ a ≠ .reset ∧ step s = .next t :=
  ⟨{ colourCarrier with pending := [.set .height 7] }, _, .set .height 7, [], rfl, (fun _ h => nomatch h), by decide, rfl⟩

theorem witness_ErrorChangesOnlyStatusAndErrcode :
    ∃ c : CommandWord, ∃ s t : State, runCommandWord c s = .next t ∧ t.err = true :=
  ⟨0x03#8, colourCarrier, _, rfl, raise_err _ _⟩

theorem witness_CommandsLeaveInputsAndForeignOutputs :
    (∃ c : CommandWord, ∃ s t : State, runCommandWord c s = .next t ∧ ∀ m, decode c ≠ .ok (encInstr m)) ∧
    ∃ c : CommandWord, ∃ s t : State, runCommandWord c s = .next t ∧ ∀ m, decode c ≠ .ok (decInstr m) :=
  ⟨⟨0x02#8, foreignCarrier, _, exec_decInstr_of_ready (m := .exact16) (by decide), fun m => by cases m <;> decide⟩,
   ⟨0x01#8, colourCarrier, _, exec_encInstr_of_ready (m := .exact16) (by decide), fun m => by cases m <;> decide⟩⟩

/-- Two different states that agree in every input of a command (SMP_OUT and the results differ). -/
theorem witness_CommandsDependOnlyOnTheirInputs :
    ∃ s s' : State, s ≠ s' ∧
      s'.height = s.height ∧ s'.width = s.width ∧ s'.channels = s.channels ∧ s'.nsamples = s.nsamples ∧
      (∀ a < s.height.toNat * s.width.toNat * s.channels.toNat, readPixIn s' a = readPixIn s a) ∧
      (∀ a < s.nsamples.toNat, readSmpIn s' a = readSmpIn s a) ∧
      ∃ t, runCommandWord 0x01#8 s = .next t ∧ t.err = false :=
  ⟨colourCarrier, { colourCarrier with theight := 9, smpOut := [(0, 5)] }, by decide, rfl, rfl, rfl, rfl,
    fun _ _ => rfl, fun _ _ => rfl, _, exec_encInstr_of_ready (m := .exact16) (by decide), complete_err _⟩

theorem witness_PlanWritesThePlan : PlanReady (loaded 1 4 0 0 [] []) ∧ PlanReady (loaded 65535 65535 0 0 [] []) := by
  decide

theorem witness_ZeroDimensionWritesNoResult :
    (¬ PlanReady (loaded 0 4 1 0 [] []) ∧ (loaded 0 4 1 0 [] []).channels = 1) ∧
    ¬ PlanReady (loaded 2 0 3 0 [] []) ∧ (loaded 2 0 3 0 [] []).channels = 3 := by decide

theorem witness_TrimGivesTheLargestMultiple : 1 ≤ 1 ∧ 4 ∣ 8 ∧ 8 ≤ trim 9 4 ∧ trim 3 4 = 0 := by decide

/-- For CapacityTilesTheTrimmedCarrier and TrimmedDimensionsAreBounded: every command has legal operands. -/
theorem witness_Ready (i : Instr) : Ready i colourCarrier := by
  cases i <;> (unfold Ready; decide)

/-- For ZeroCapacityIsSuccess: legal operands with capacity 0, in both modes. -/
theorem witness_ZeroCapacityIsSuccess :
    (Ready .encX16 (loaded 1 3 3 0 [] []) ∧ (planOf .exact16 (loaded 1 3 3 0 [] [])).cap = 0) ∧
    Ready .decP12 (loaded 7 1 3 0 [] []) ∧ (planOf .packed12 (loaded 7 1 3 0 [] [])).cap = 0 := by
  unfold Ready; decide

theorem witness_PlanningATrimmedCarrierChangesNothing :
    0 < (plan .exact16 2 4).th ∧ 0 < (plan .exact16 2 4).tw ∧
    0 < (plan .packed12 481 643).th ∧ 0 < (plan .packed12 481 643).tw := by decide

theorem witness_EveryCommandOfAModePlansAlike :
    PlanReady (loaded 2 4 0 0 [] []) ∧ colourCarrier.height = (loaded 2 4 0 0 [] []).height ∧
    colourCarrier.width = (loaded 2 4 0 0 [] []).width ∧ EncReady colourCarrier ∧ DecReady colourCarrier := by decide

/-- For the ENC statements: legal operands, gray and colour, and at least one byte in the extent in each mode. -/
theorem witness_EncReady :
    EncReady grayCarrier ∧ EncReady onePair ∧ 0 < (planOf .exact16 grayCarrier).nslots ∧
    0 < (planOf .packed12 onePair).nslots := by decide

theorem witness_EncodeRejectsOtherShapes :
    ((loaded 2 4 4 0 [] []).channels ≠ 1 ∧ (loaded 2 4 4 0 [] []).channels ≠ 3) ∧
    (∃ t, exec (planInstr .exact16) State.reset = .next t) ∧ ∃ t, exec (decInstr .exact16) State.reset = .next t :=
  ⟨by decide, ⟨_, rfl⟩, ⟨_, rfl⟩⟩

theorem witness_GrayscaleEncodesLikeEqualChannels :
    PlanReady grayCarrier ∧ equalChannels.height = grayCarrier.height ∧ equalChannels.width = grayCarrier.width ∧
    equalChannels.nsamples = grayCarrier.nsamples ∧ grayCarrier.channels = 1 ∧ equalChannels.channels = 3 ∧
    (∀ g < grayCarrier.nsamples.toNat, readSmpIn equalChannels g = readSmpIn grayCarrier g) ∧
    ∀ r < grayCarrier.height.toNat, ∀ c < grayCarrier.width.toNat, ∀ ch < 3,
      readPixIn equalChannels ((r * grayCarrier.width.toNat + c) * 3 + ch)
        = readPixIn grayCarrier (r * grayCarrier.width.toNat + c) := by decide

/-- Samples past the capacity differ and NSAMPLES shrinks to it; and a padded group (T10 with NSAMPLES 0). -/
theorem witness_SamplesAreTruncatedAndPadded :
    (EncReady colourCarrier ∧ ∀ g < (planOf .exact16 colourCarrier).cap,
      sampleFor { colourCarrier with nsamples := 3, smpIn := [(0, 0xFFFF), (1, 0x8000), (2, 12345), (3, 1)] } g
        = sampleFor colourCarrier g) ∧
    EncReady (loaded 1 4 1 0 [7, 77, 177, 255] []) ∧
    11 < (planOf .packed12 (loaded 1 4 1 0 [7, 77, 177, 255] [])).nslots ∧
    (loaded 1 4 1 0 [7, 77, 177, 255] []).nsamples.toNat ≤ 11 / slotsOf .packed12 := by decide

theorem witness_WrittenInputsLeaveNoFreeValue :
    EncReady onePair ∧ EncReadSetWritten .packed12 onePair ∧ DecReady onePair ∧ DecReadSetWritten .packed12 onePair := by
  refine ⟨by decide, ⟨?_, ?_⟩, by decide, ?_⟩
  · show ∀ f < 6, _; decide
  · show ∀ g < 1, _; decide
  · show ∀ f < 6, _; decide

/-- For the DEC statements: legal operands and at least one sample in the extent in each mode. -/
theorem witness_DecReady :
    DecReady foreignCarrier ∧ 0 < (planOf .exact16 foreignCarrier).cap ∧ 0 < (planOf .packed12 foreignCarrier).cap := by
  decide

theorem witness_DecodeRejectsMalformedCarriers :
    (loaded 2 4 1 0 [] []).channels ≠ 3 ∧ (loaded 0 4 3 0 [] []).height = 0 ∧ (loaded 2 0 3 0 [] []).width = 0 ∧
    DecReady (loaded 1 3 3 0 [] []) ∧ (∃ t, exec (planInstr .packed12) State.reset = .next t) ∧
    ∃ t, exec (encInstr .packed12) State.reset = .next t :=
  ⟨by decide, by decide, by decide, by decide, ⟨_, rfl⟩, ⟨_, rfl⟩⟩

/-- The pair's carrier with every byte's upper six bits changed and its payload kept. -/
def brightened : State := loaded 1 2 3 1 [14, 15, 16, 17, 2, 3] [0xFB2E]

theorem witness_DecodeIgnoresImageBits :
    DecReady onePair ∧ brightened.height = onePair.height ∧ brightened.width = onePair.width ∧ brightened.channels = 3 ∧
    ∀ f < (planOf .packed12 onePair).nslots,
      payload (carrierByte .packed12 brightened f) = payload (carrierByte .packed12 onePair f) := by decide

/-- T6's carrier and sample; the decoder is given the encoder's output at the trimmed dimensions. -/
theorem witness_ExactRoundTripIsLossless :
    ∃ s s1 s2 : State, EncReady s ∧ exec .encX16 s = .next s1 ∧ s1.theight ≠ 0 ∧ s1.twidth ≠ 0 ∧
      s2.height = s1.theight ∧ s2.width = s1.twidth ∧ s2.channels = 3 ∧
      ∀ f < s1.nslots.toNat, payload (readPixIn s2 f) = payload (readPixOut s1 f) :=
  ⟨loaded 2 4 1 1 (List.replicate 8 200) [1000], encoded .exact16 (loaded 2 4 1 1 (List.replicate 8 200) [1000]),
    scenarioCarrier, by decide, exec_encInstr_of_ready (m := .exact16) (by decide), by decide, by decide, by decide,
    by decide, by decide, by decide⟩

/-- T9's pair. -/
theorem witness_PackedRoundTripClearsTheLowBits :
    ∃ s s1 s2 : State, EncReady s ∧ exec .encP12 s = .next s1 ∧ s1.theight ≠ 0 ∧ s1.twidth ≠ 0 ∧
      s2.height = s1.theight ∧ s2.width = s1.twidth ∧ s2.channels = 3 ∧
      ∀ f < s1.nslots.toNat, payload (readPixIn s2 f) = payload (readPixOut s1 f) :=
  ⟨onePair, encoded .packed12 onePair, loaded 1 2 3 0 [10, 8, 15, 14, 255, 255] [], by decide,
    exec_encInstr_of_ready (m := .packed12) (by decide), by decide, by decide, by decide, by decide, by decide, by decide⟩

theorem witness_ArithmeticShiftIsFloorDivision : 0 ≤ 16 ∧ 16 ≤ 16 := by decide

theorem witness_LoopDigitsAreBitsOfTheSample : 7 < slotsOf .exact16 ∧ 5 < slotsOf .packed12 := by decide

theorem witness_PixelPairsAreGroupsOfSix : 4 % 2 = 0 ∧ 1 < 4 / 2 ∧ 5 < 6 := by decide

theorem witness_FlatIndexIsABijection : (1 < 2 ∧ 3 < 4 ∧ 2 < 3) ∧ 23 < 2 * 4 * 3 := by decide

/-- A state with loaded inputs that meets the invariant, and an ENC from it. -/
theorem witness_StepKeepsTheInvariant :
    ∃ s t : State, Inv s ∧ s.pixIn ≠ [] ∧ step s = .next t := by
  refine ⟨{ onePair with pending := [.set .cmd 0x05#8] }, encoded .packed12 onePair, ?_, by decide,
    exec_encInstr_of_ready (m := .packed12) (s := onePair) (by decide)⟩
  constructor <;> first | decide | exact ⟨.exact16, by decide⟩

end Sys2Proof.Tests
end

section
/-! The arithmetic primitives on sample patterns and carrier bytes: arithmetic shift (R9), quantisation and the digit
added to a quantised byte (R11, R134). -/

namespace Sys2Proof.Machine

/-! ## The arithmetic right shift -/

theorem s16_asr16 (p : Sample) (k : Nat) : s16 (asr16 p k) = s16 p / 2 ^ k := by
  simp [s16, asr16, BitVec.toInt_sshiftRight, Int.shiftRight_eq_div_pow]

/-- Bit `i` of either side is bit `k + i` of the sample, or its sign bit from `k + i = 16` on. -/
theorem asr16_eq_extractLsb'_signExtend (p : Sample) (k : Nat) :
    asr16 p k = (p.signExtend (16 + k)).extractLsb' k 16 := by
  refine BitVec.eq_of_getElem_eq fun i hi => ?_
  have hik : k + i < 16 + k := by omega
  simp [asr16, BitVec.getElem_sshiftRight, BitVec.getElem_signExtend, hik]

/-- Settles O41, from the value of the shifted sample and from its bits. -/
theorem arithmeticShiftIsFloorDivision : Obligations.ArithmeticShiftIsFloorDivision :=
  fun p k _ => ⟨s16_asr16 p k, asr16_eq_extractLsb'_signExtend p k⟩

/-! ## Quantisation -/

theorem toNat_quantise (b : Byte) : (quantise b).toNat = b.toNat - b.toNat % 4 := by
  have hle : b % 4#8 ≤ b := by simpa [BitVec.le_def] using Nat.mod_le b.toNat 4
  simp [quantise, BitVec.toNat_sub_of_le hle]

/-- Quantising rounds down to a multiple of 4. -/
theorem toNat_quantise_eq_mul (b : Byte) : (quantise b).toNat = 4 * (b.toNat / 4) := by
  rw [toNat_quantise]; omega

@[simp] theorem quantise_quantise (b : Byte) : quantise (quantise b) = quantise b := by
  apply BitVec.eq_of_toNat_eq
  simp [toNat_quantise_eq_mul]

theorem quantise_eq_and (b : Byte) : quantise b = b &&& 0xFC#8 := by
  revert b; decide

/-- The mask keeps no bit of a quantised byte where a digit has one. -/
theorem quantise_and_digit (b : Byte) (d : Digit) : quantise b &&& d.setWidth 8 = 0#8 := by
  have hd : 0xFC#8 &&& d.setWidth 8 = 0#8 := by revert d; decide
  rw [quantise_eq_and, BitVec.and_assoc, hd, BitVec.and_zero]

theorem pack_quantise_eq_or (b : Byte) (d : Digit) : pack (quantise b) d = quantise b ||| d.setWidth 8 :=
  BitVec.add_eq_or_of_and_eq_zero _ _ (quantise_and_digit b d)

theorem toNat_pack_quantise (b : Byte) (d : Digit) :
    (pack (quantise b) d).toNat = (quantise b).toNat + d.toNat := by
  have hd : (d.setWidth 8).toNat = d.toNat := BitVec.toNat_setWidth_of_le (by decide)
  rw [pack, BitVec.toNat_add_of_and_eq_zero (quantise_and_digit b d), hd]

/-- Settles O43: quantising rounds down to a multiple of 4, whose bits are disjoint from every digit's. -/
theorem byteArithmeticNeverCarries : Obligations.ByteArithmeticNeverCarries := by
  intro b d
  have hq := toNat_quantise b
  have hb := b.isLt
  exact ⟨quantise_eq_and b, quantise_quantise b, by omega, by omega, by omega, hq, pack_quantise_eq_or b d,
    toNat_pack_quantise b d⟩

end Sys2Proof.Machine
end

section
/-! What the codec's loops write, in closed form and for both modes at once: the elements of the extent, each with the
byte of R137 or the sample of R166 (41_codec_encode.md, 42_codec_decode.md). -/

namespace Sys2Proof.Machine

/-! ## The extent: groups of slots, rows of columns -/

/-- The groups tile the slots (R114). -/
theorem plan_cap_mul_slotsOf (m : Mode) (h w : Nat) : (plan m h w).cap * slotsOf m = (plan m h w).nslots := by
  cases m with
  | exact16 =>
    have h2 : 2 ∣ trim h 2 := Nat.dvd_of_mod_eq_zero (trim_mod h 2)
    have h4 : 4 ∣ trim w 4 := Nat.dvd_of_mod_eq_zero (trim_mod w 4)
    exact Nat.div_mul_cancel ((mul_dvd_mul h2 h4).mul_right 3)
  | packed12 =>
    obtain ⟨b, hb⟩ := Nat.dvd_of_mod_eq_zero (trim_mod w 2)
    show h * (trim w 2 / 2) * 6 = h * trim w 2 * 3
    rw [hb, Nat.mul_div_cancel_left b two_pos]
    ring

theorem planOf_nslots_eq (m : Mode) (s : State) : (planOf m s).nslots = (planOf m s).cap * slotsOf m :=
  (plan_cap_mul_slotsOf m _ _).symm

theorem planOf_packed12_cap (s : State) :
    (planOf .packed12 s).cap = (planOf .packed12 s).th * ((planOf .packed12 s).tw / 2) := rfl

theorem planOf_packed12_tw_mod (s : State) : (planOf .packed12 s).tw % 2 = 0 := trim_mod _ 2

/-- Counting `c` blocks of `n` block by block is counting up to `c * n`. -/
theorem exists_lt_mul_iff {c n : Nat} {P : Nat → Prop} :
    (∃ g < c, ∃ k < n, P (g * n + k)) ↔ ∃ f < c * n, P f := by
  constructor
  · rintro ⟨g, hg, k, hk, h⟩
    have : (g + 1) * n ≤ c * n := Nat.mul_le_mul_right n hg
    exact ⟨g * n + k, by linarith, h⟩
  · rintro ⟨f, hf, h⟩
    have hn : 0 < n := Nat.pos_of_ne_zero fun h0 => by simp [h0] at hf
    refine ⟨f / n, Nat.div_lt_of_lt_mul (Nat.mul_comm c n ▸ hf), f % n, Nat.mod_lt f hn, ?_⟩
    rwa [Nat.div_add_mod']

theorem chanOf_flat (tw r c : Nat) {ch : Nat} (h : ch < 3) : chanOf (flat tw r c ch) = ch := by
  simp only [chanOf, flat, nchan]; omega

theorem flat_div_nchan (tw r c : Nat) {ch : Nat} (h : ch < 3) : flat tw r c ch / nchan = r * tw + c := by
  simp only [flat, nchan]; omega

theorem colOf_flat {tw c ch : Nat} (r : Nat) (hc : c < tw) (h : ch < 3) : colOf tw (flat tw r c ch) = c := by
  rw [colOf, flat_div_nchan tw r c h, Nat.mul_add_mod', Nat.mod_eq_of_lt hc]

theorem rowOf_flat {tw c ch : Nat} (r : Nat) (hc : c < tw) (h : ch < 3) : rowOf tw (flat tw r c ch) = r := by
  rw [rowOf, flat_div_nchan tw r c h, Nat.mul_comm, Nat.mul_add_div (by omega), Nat.div_eq_of_lt hc, Nat.add_zero]

/-- Slot `k` of a pixel pair of PACKED12 is slot `k` of group `row * (tw / 2) + pair` (R92). -/
theorem flat_pixelPair {tw : Nat} (htw : tw % 2 = 0) (row pair k : Nat) :
    flat tw row (2 * pair + k / 3) (k % 3) = (row * (tw / 2) + pair) * 6 + k := by
  obtain ⟨n, rfl⟩ := Nat.dvd_of_mod_eq_zero htw
  rw [Nat.mul_div_cancel_left n two_pos]
  simp only [flat, nchan]
  have := Nat.div_add_mod k 3
  linarith

/-- The element of slot `k` of a pixel pair of PACKED12, read back from its flat index. -/
theorem pixelPair_of_index {tw pair k : Nat} (htw : tw % 2 = 0) (row : Nat) (hp : pair < tw / 2) (hk : k < 6) :
    rowOf tw ((row * (tw / 2) + pair) * 6 + k) = row ∧
    colOf tw ((row * (tw / 2) + pair) * 6 + k) = 2 * pair + k / 3 ∧
    chanOf ((row * (tw / 2) + pair) * 6 + k) = k % 3 := by
  have hc : 2 * pair + k / 3 < tw := by omega
  have hch : k % 3 < 3 := Nat.mod_lt k three_pos
  rw [← flat_pixelPair htw]
  exact ⟨rowOf_flat row hc hch, colOf_flat row hc hch, chanOf_flat tw row _ hch⟩

/-! ## Encode -/

theorem lowDigit_asr16 (p : Sample) {n : Nat} (hn : n ≤ 14) : lowDigit (asr16 p n) = p.extractLsb' n 2 := by
  refine BitVec.eq_of_getElem_eq fun i hi => ?_
  have hni : n + i < 16 := by omega
  have hi16 : ¬ 16 ≤ i := by omega
  simp [lowDigit, asr16, BitVec.getLsbD_sshiftRight, hni, hi16]

/-- The running sample's low digit at slot `k` is the sample's own digit `k` (R89). -/
theorem lowDigit_running (m : Mode) (p : Sample) {k : Nat} (hk : k < slotsOf m) :
    lowDigit (asr16 (asr16 p (preOf m)) (2 * k)) = sampleDigit m p k := by
  have hn : preOf m + 2 * k ≤ 14 := by cases m <;> simp only [slotsOf, preOf] at hk ⊢ <;> omega
  rw [asr16_asr16, lowDigit_asr16 p hn, sampleDigit]

/-- The byte the slot loop writes at slot `k` of group `g` is R137's. -/
theorem encodedByte_group_slot (m : Mode) (s : State) (g : Nat) {k : Nat} (hk : k < slotsOf m) :
    encodedByte m s (g * slotsOf m + k) =
      pack (quantise (trimmedByte m s (g * slotsOf m + k)))
        (lowDigit (asr16 (asr16 (sampleFor s g) (preOf m)) (2 * k))) := by
  have hdiv : (g * slotsOf m + k) / slotsOf m = g := by
    rw [Nat.mul_comm, Nat.mul_add_div (by omega), Nat.div_eq_of_lt hk, Nat.add_zero]
  have hmod : (g * slotsOf m + k) % slotsOf m = k := by rw [Nat.mul_add_mod', Nat.mod_eq_of_lt hk]
  rw [encodedByte, hdiv, hmod, lowDigit_running m _ hk]

theorem cellPacked12_eq (s : State) (row : Nat) {pair k : Nat} (hp : pair < (planOf .packed12 s).tw / 2) (hk : k < 6) :
    cellPacked12 s (planOf .packed12 s).tw row pair k =
      ((row * ((planOf .packed12 s).tw / 2) + pair) * 6 + k,
        trimmedByte .packed12 s ((row * ((planOf .packed12 s).tw / 2) + pair) * 6 + k)) := by
  have htw := planOf_packed12_tw_mod s
  obtain ⟨hr, hc, hch⟩ := pixelPair_of_index htw row hp hk
  rw [trimmedByte, hr, hc, hch, ← flat_pixelPair htw, cellPacked12]

/-- ENC writes exactly the elements of its extent, each with the byte of R137. -/
theorem mem_encWrites {m : Mode} {s : State} {q : Nat × Byte} :
    q ∈ encWrites m s ↔ ∃ f < (planOf m s).nslots, q = (f, encodedByte m s f) := by
  rw [planOf_nslots_eq, ← exists_lt_mul_iff]
  cases m with
  | exact16 =>
    rw [encWrites, mem_encWritesExact16]
    refine exists_congr fun g => and_congr_right fun _ => exists_congr fun k => and_congr_right fun hk => ?_
    rw [encodedByte_group_slot _ s g hk, cellExact16, preOf, asr16_zero, slotsOf, Nat.mul_comm 8 g, trimmedByte]
  | packed12 =>
    rw [encWrites, mem_encWritesPacked12, planOf_packed12_cap,
      ← exists_lt_mul_iff (P := fun g => ∃ k < slotsOf .packed12, q = (_, encodedByte _ s (g * slotsOf .packed12 + k)))]
    refine exists_congr fun row => and_congr_right fun _ => exists_congr fun pair => and_congr_right fun hp =>
      exists_congr fun k => and_congr_right fun hk => ?_
    rw [encodedByte_group_slot _ s _ hk, cellPacked12_eq s row hp hk, slotsOf, preOf]

theorem read?_encoded_pixOut {m : Mode} {s : State} {f : Nat} (hf : f < (planOf m s).nslots) :
    Memory.read? (encoded m s).pixOut f = some (encodedByte m s f) := by
  refine Memory.read?_writeAll_of_mem _ _ f _ ⟨_, mem_encWrites.2 ⟨f, hf, rfl⟩, rfl⟩ fun q hq he => ?_
  obtain ⟨f', _, rfl⟩ := mem_encWrites.1 hq
  exact congrArg (encodedByte m s) he

/-! ## Decode -/

theorem shl16_eq_mul (p : Sample) (k : Nat) : shl16 p k = p * BitVec.ofNat 16 (2 ^ k) := by
  have hpow : BitVec.twoPow 16 k = BitVec.ofNat 16 (2 ^ k) :=
    BitVec.eq_of_toNat_eq (by rw [BitVec.toNat_twoPow, BitVec.toNat_ofNat])
  rw [shl16, BitVec.shiftLeft_eq_mul_twoPow, hpow]

theorem setWidth_digit_eq (d : Digit) : d.setWidth 16 = ((d.toNat : Nat) : Sample) := by
  rw [BitVec.natCast_eq_ofNat, BitVec.ofNat_toNat]

/-- Shift-then-add from slot `n - 1` down puts digit `k` at weight `4 ^ k` (R164, R165). -/
theorem accShiftAdd_eq (d : Nat → Digit) (n : Nat) (acc : Sample) :
    accShiftAdd d n acc = acc * 4 ^ n + ((∑ k ∈ Finset.range n, (d k).toNat * 4 ^ k : Nat) : Sample) := by
  induction n generalizing acc with
  | zero => simp
  | succ n ih =>
    have h4 : shl16 acc 2 = acc * 4 := shl16_eq_mul acc 2
    rw [accShiftAdd_succ, ih, Finset.sum_range_succ, h4, setWidth_digit_eq]
    push_cast
    ring

/-- Add-then-shift leaves every digit one more place to the left (R168, C1). -/
theorem accAddShift_eq (d : Nat → Digit) (n : Nat) (acc : Sample) :
    accAddShift d n acc = acc * 4 ^ n + 4 * ((∑ k ∈ Finset.range n, (d k).toNat * 4 ^ k : Nat) : Sample) := by
  induction n generalizing acc with
  | zero => simp
  | succ n ih =>
    have h4 : shl16 (acc + (d n).setWidth 16) 2 = (acc + (d n).setWidth 16) * 4 := shl16_eq_mul _ 2
    rw [accAddShift_succ, ih, Finset.sum_range_succ, h4, setWidth_digit_eq]
    push_cast
    ring

theorem decodedSample_exact16 (s : State) (g : Nat) :
    decodedSample .exact16 s g = accShiftAdd (digitExact16 s (planOf .exact16 s).tw g) 8 0 := by
  have hpost : decodedSample .exact16 s g = BitVec.ofNat 16 (groupValue .exact16 s g) * 1 := shl16_eq_mul _ 0
  rw [hpost, accShiftAdd_eq, zero_mul, zero_add, mul_one]
  rfl

theorem groupValue_packed12 (s : State) (row : Nat) {pair : Nat} (hp : pair < (planOf .packed12 s).tw / 2) :
    groupValue .packed12 s (row * ((planOf .packed12 s).tw / 2) + pair) =
      ∑ k ∈ Finset.range 6, (digitPacked12 s row pair k).toNat * 4 ^ k := by
  refine Finset.sum_congr rfl fun k hk => ?_
  obtain ⟨hr, hc, hch⟩ := pixelPair_of_index (planOf_packed12_tw_mod s) row hp (Finset.mem_range.1 hk)
  rw [slotDigit, carrierByte, slotsOf, Nat.mul_comm 6, hr, hc, hch, digitPacked12]

theorem decodedSample_packed12 (s : State) (row : Nat) {pair : Nat} (hp : pair < (planOf .packed12 s).tw / 2) :
    decodedSample .packed12 s (row * ((planOf .packed12 s).tw / 2) + pair) =
      shl16 (accAddShift (digitPacked12 s row pair) 6 0) 2 := by
  have h4 (x : Sample) : shl16 x 2 = x * 4 := shl16_eq_mul x 2
  have h16 (x : Sample) : shl16 x 4 = x * 16 := shl16_eq_mul x 4
  rw [decodedSample, postOf, groupValue_packed12 s row hp, accAddShift_eq, BitVec.natCast_eq_ofNat, h4, h16]
  ring

/-- DEC writes exactly the elements of its extent, each with the sample of R166. -/
theorem mem_decWrites {m : Mode} {s : State} {q : Nat × Sample} :
    q ∈ decWrites m s ↔ ∃ g < (planOf m s).cap, q = (g, decodedSample m s g) := by
  cases m with
  | exact16 => simp only [decWrites, mem_decWritesExact16, decodedSample_exact16]
  | packed12 =>
    rw [decWrites, mem_decWritesPacked12, planOf_packed12_cap, ← exists_lt_mul_iff]
    refine exists_congr fun row => and_congr_right fun _ => exists_congr fun pair => and_congr_right fun hp => ?_
    rw [decodedSample_packed12 s row hp]

theorem read?_decoded_smpOut {m : Mode} {s : State} {g : Nat} (hg : g < (planOf m s).cap) :
    Memory.read? (decoded m s).smpOut g = some (decodedSample m s g) := by
  refine Memory.read?_writeAll_of_mem _ _ g _ ⟨_, mem_decWrites.2 ⟨g, hg, rfl⟩, rfl⟩ fun q hq he => ?_
  obtain ⟨g', _, rfl⟩ := mem_decWrites.1 hq
  exact congrArg (decodedSample m s) he

end Sys2Proof.Machine
end

section
/-! What a command and a host action leave unchanged, and how a command reports its end (10_state.md R21, R22, R26, R30 to
R32, R35, R36). -/

namespace Sys2Proof.Machine

/-! ## The steps (R28, R32, R83) -/

theorem runCommandWord_of_decode_ok {c : CommandWord} {i : Instr} (h : decode c = .ok i) (s : State) :
    runCommandWord c s = exec i s := by rw [runCommandWord, h]

theorem runCommandWord_of_decode_error {c : CommandWord} {e : DecodeError} (h : decode c = .error e) (s : State) :
    runCommandWord c s = .next (raise .illegalCommand s) := by rw [runCommandWord, h]

/-- Settles O4, from what a step does and what a write to CMD runs. -/
theorem stepRunsTheDecodedCommand : Obligations.StepRunsTheDecodedCommand := by
  refine ⟨fun s a rest hp => step_cons hp, fun s c i rest hp hd => ?_, fun s c e rest hp hd => ?_⟩
  · exact (step_cons hp).trans (runCommandWord_of_decode_ok hd _)
  · exact (step_cons hp).trans (runCommandWord_of_decode_error hd _)

/-- Settles O5: an empty queue is the step's first case. -/
theorem idleStepChangesNothing : Obligations.IdleStepChangesNothing := fun _ h => step_nil h

/-! ## Register access and reset (R35, R36) -/

/-- Settles O9: a write to a register other than CMD is `writeReg`, whose cases are the claims. -/
theorem hostAccessToRegisters : Obligations.HostAccessToRegisters := by
  intro s
  have hset (r : Reg) (v : BitVec r.bits) (hr : r ≠ .cmd) : hostAct (.set r v) s = .next (writeReg s r v) :=
    hostSet_of_ne_cmd s r v hr
  exact ⟨fun v => hset .theight v (by decide), fun v => hset .twidth v (by decide),
    fun v => hset .capacity v (by decide), fun v => hset .nslots v (by decide), fun v => hset .status v (by decide),
    fun v => hset .errcode v (by decide), fun v => hset .height v (by decide), fun v => hset .width v (by decide),
    fun v => hset .channels v (by decide), fun v => hset .nsamples v (by decide), fun _ => rfl, rfl⟩

theorem readReg_reset (r : Reg) : readReg State.reset r = 0 := by cases r <;> rfl

theorem readReg_applyReset (s : State) (r : Reg) : readReg (applyReset s) r = 0 := by cases r <;> rfl

@[simp] theorem Memory.read?_nil {w : Nat} (a : Nat) : Memory.read? ([] : Memory w) a = none := rfl

/-- Settles O8: in both states every register is 0 and every buffer is the empty memory. -/
theorem resetLeavesZeroRegistersAndEmptyBuffers : Obligations.ResetLeavesZeroRegistersAndEmptyBuffers :=
  ⟨readReg_reset, fun _ => ⟨rfl, rfl, rfl, rfl⟩,
    fun s => ⟨applyReset s, rfl, readReg_applyReset s, fun a => by simp⟩⟩

/-! ## The frame of a host action -/

/-- All that a host action that goes on can have done. -/
theorem hostAct_cases {a : HostAction} {s t : State} (h : hostAct a s = .next t) :
    (a = .reset ∧ t = applyReset s) ∨ (∃ c, a = .set .cmd c ∧ runCommandWord c s = .next t) ∨
    (∃ r v, t = writeReg s r v) ∨ (∃ y, t = { s with reply := y }) ∨
    (∃ i vs, i + vs.length ≤ pixElements ∧ t = { s with pixIn := Memory.writeRun s.pixIn i vs }) ∨
    ∃ i vs, i + vs.length ≤ smpElements ∧ t = { s with smpIn := Memory.writeRun s.smpIn i vs } := by
  cases a with
  | reset => cases h; exact .inl ⟨rfl, rfl⟩
  | set r v =>
    by_cases hr : r = .cmd
    · subst hr; exact .inr (.inl ⟨v, rfl, h⟩)
    · cases (hostSet_of_ne_cmd s r v hr).symm.trans h
      exact .inr (.inr (.inl ⟨r, v, rfl⟩))
  | get r => cases h; exact .inr (.inr (.inr (.inl ⟨_, rfl⟩)))
  | fillPixIn i vs =>
    simp only [hostAct] at h
    split_ifs at h with hfit
    cases h
    exact .inr (.inr (.inr (.inr (.inl ⟨_, _, runFits_eq_true.1 hfit, rfl⟩))))
  | fillSmpIn i vs =>
    simp only [hostAct] at h
    split_ifs at h with hfit
    cases h
    exact .inr (.inr (.inr (.inr (.inr ⟨_, _, runFits_eq_true.1 hfit, rfl⟩))))
  | dumpPixOut i count =>
    simp only [hostAct] at h
    split_ifs at h
    cases h
    exact .inr (.inr (.inr (.inl ⟨_, rfl⟩)))
  | dumpSmpOut i count =>
    simp only [hostAct] at h
    split_ifs at h
    cases h
    exact .inr (.inr (.inr (.inl ⟨_, rfl⟩)))
  | copyPixOut count =>
    simp only [hostAct] at h
    split_ifs at h with hfit
    cases h
    exact .inr (.inr (.inr (.inr (.inl ⟨0, (List.range count).map (readPixOut s), by simpa using hfit, rfl⟩))))

/-- What the commands and reset alone can write is as it was: the results, STATUS, ERRCODE and the output buffers. The
model's queue and epoch stay with them. -/
structure SameOutputs (s t : State) : Prop where
  theight : t.theight = s.theight
  twidth : t.twidth = s.twidth
  capacity : t.capacity = s.capacity
  nslots : t.nslots = s.nslots
  status : t.status = s.status
  errcode : t.errcode = s.errcode
  pixOut : t.pixOut = s.pixOut
  smpOut : t.smpOut = s.smpOut
  pending : t.pending = s.pending
  epoch : t.epoch = s.epoch

theorem sameOutputs_writeReg (s : State) (r : Reg) (v : BitVec r.bits) : SameOutputs s (writeReg s r v) := by
  cases r <;> constructor <;> rfl

theorem hostAct_sameOutputs {a : HostAction} {s t : State} (hcmd : ∀ c, a ≠ .set .cmd c) (hreset : a ≠ .reset)
    (h : hostAct a s = .next t) : SameOutputs s t := by
  rcases hostAct_cases h with ⟨ha, _⟩ | ⟨c, ha, _⟩ | ⟨r, v, rfl⟩ | ⟨y, rfl⟩ | ⟨i, vs, _, rfl⟩ | ⟨i, vs, _, rfl⟩
  · exact absurd ha hreset
  · exact absurd ha (hcmd c)
  · exact sameOutputs_writeReg s r v
  · constructor <;> rfl
  · constructor <;> rfl
  · constructor <;> rfl

/-- Settles O13: the step is the host action on the state without it, which keeps all outputs. -/
theorem onlyCommandsAndResetWriteResults : Obligations.OnlyCommandsAndResetWriteResults := by
  intro s t a rest hp hcmd hreset hstep
  have ho := hostAct_sameOutputs hcmd hreset ((step_cons hp).symm.trans hstep)
  exact ⟨ho.theight, ho.twidth, ho.capacity, ho.nslots, ho.status, ho.errcode, ho.pixOut, ho.smpOut, ho.pending,
    ho.epoch⟩

/-! ## The end and the frame of a command -/

/-- All that a write to CMD can leave: an error, or the success of the decoded command on legal operands. -/
theorem runCommandWord_outcome (c : CommandWord) (s : State) :
    (∃ e, runCommandWord c s = .next (raise e s)) ∨
    (∃ m, decode c = .ok (planInstr m) ∧ runCommandWord c s = .next (complete (writePlan (planOf m s) s))) ∨
    (∃ m, decode c = .ok (encInstr m) ∧ runCommandWord c s = .next (encoded m s)) ∨
    ∃ m, decode c = .ok (decInstr m) ∧ runCommandWord c s = .next (decoded m s) := by
  rcases runCommandWord_cases c s with ⟨i, hd, hrun⟩ | ⟨_, _, hrun⟩
  · rw [hrun, hd]
    rcases exec_cases i s with ⟨e, h⟩ | ⟨m, rfl, _, h⟩ | ⟨m, rfl, _, h⟩ | ⟨m, rfl, _, h⟩
    · exact .inl ⟨e, h⟩
    · exact .inr (.inl ⟨m, rfl, h⟩)
    · exact .inr (.inr (.inl ⟨m, rfl, h⟩))
    · exact .inr (.inr (.inr ⟨m, rfl, h⟩))
  · exact .inl ⟨_, hrun⟩

/-- DONE is 1, the reserved bits of STATUS are 0 and ERRCODE is one of the codes, 0 exactly without ERR (R30, R31). -/
structure Reports (t : State) : Prop where
  done : t.done = true
  reserved : t.status.extractLsb' 2 6 = 0#6
  errcode_le : t.errcode.toNat ≤ 4
  err_iff : t.errcode ≠ 0 ↔ t.err = true

theorem reports_raise (e : CommandError) (s : State) : Reports (raise e s) where
  done := raise_done e s
  reserved := by rw [raise_status]; decide
  errcode_le := (errorCode_range e).2
  err_iff := iff_of_true (errorCode_range e).1 (raise_err e s)

theorem reports_complete (s : State) : Reports (complete s) where
  done := complete_done s
  reserved := by rw [complete_status]; decide
  errcode_le := by simp
  err_iff := by simp

/-- Settles O14: a write to CMD ends in `raise` or in `complete`, and both report. -/
theorem everyCommandWordReportsItsOutcome : Obligations.EveryCommandWordReportsItsOutcome := by
  intro c s
  suffices h : ∃ t, runCommandWord c s = .next t ∧ Reports t by
    obtain ⟨t, hrun, hr⟩ := h
    exact ⟨t, hrun, hr.done, hr.reserved, hr.errcode_le, hr.err_iff⟩
  rcases runCommandWord_outcome c s with ⟨e, h⟩ | ⟨m, _, h⟩ | ⟨m, _, h⟩ | ⟨m, _, h⟩
  · exact ⟨_, h, reports_raise e s⟩
  · exact ⟨_, h, reports_complete _⟩
  · exact ⟨_, h, reports_complete _⟩
  · exact ⟨_, h, reports_complete _⟩

/-- What no command writes is as it was: the operands, the input buffers and the model's own fields. -/
structure SameOperands (s t : State) : Prop where
  height : t.height = s.height
  width : t.width = s.width
  channels : t.channels = s.channels
  nsamples : t.nsamples = s.nsamples
  pixIn : t.pixIn = s.pixIn
  smpIn : t.smpIn = s.smpIn
  pending : t.pending = s.pending
  reply : t.reply = s.reply
  epoch : t.epoch = s.epoch

theorem runCommandWord_sameOperands {c : CommandWord} {s t : State} (h : runCommandWord c s = .next t) :
    SameOperands s t := by
  rcases runCommandWord_outcome c s with ⟨e, h'⟩ | ⟨m, _, h'⟩ | ⟨m, _, h'⟩ | ⟨m, _, h'⟩ <;>
    (cases h.symm.trans h'; constructor <;> rfl)

theorem runCommandWord_pixOut {c : CommandWord} {s t : State} (h : runCommandWord c s = .next t)
    (henc : ∀ m, decode c ≠ .ok (encInstr m)) : t.pixOut = s.pixOut := by
  rcases runCommandWord_outcome c s with ⟨e, h'⟩ | ⟨m, _, h'⟩ | ⟨m, hd, _⟩ | ⟨m, _, h'⟩
  · cases h.symm.trans h'; rfl
  · cases h.symm.trans h'; rfl
  · exact absurd hd (henc m)
  · cases h.symm.trans h'; rfl

theorem runCommandWord_smpOut {c : CommandWord} {s t : State} (h : runCommandWord c s = .next t)
    (hdec : ∀ m, decode c ≠ .ok (decInstr m)) : t.smpOut = s.smpOut := by
  rcases runCommandWord_outcome c s with ⟨e, h'⟩ | ⟨m, _, h'⟩ | ⟨m, _, h'⟩ | ⟨m, hd, _⟩
  · cases h.symm.trans h'; rfl
  · cases h.symm.trans h'; rfl
  · cases h.symm.trans h'; rfl
  · exact absurd hd (hdec m)

/-- Settles O16, from the frame of a command and what it leaves of the output buffers. -/
theorem commandsLeaveInputsAndForeignOutputs : Obligations.CommandsLeaveInputsAndForeignOutputs := by
  intro c s t h
  have ho := runCommandWord_sameOperands h
  exact ⟨ho.height, ho.width, ho.channels, ho.nsamples, ho.pixIn, ho.smpIn, ho.pending, ho.reply, ho.epoch,
    runCommandWord_pixOut h, runCommandWord_smpOut h⟩

end Sys2Proof.Machine
end

section
/-! The invariant of the machine: it holds at reset, and every step keeps it (10_state.md R30, R31, R36; 20_memory.md R50;
40_planner.md R114). -/

namespace Sys2Proof.Machine

/-! ## Reset -/

theorem err_of_status_zero {s : State} (h : s.status = 0) : s.err = false := by rw [State.err, h]; decide

/-- With every register 0 and every buffer empty the invariant holds, whatever the model's own fields are. -/
theorem inv_reset_with (p : List HostAction) (y : Option HostReply) (e : Nat) :
    Inv { State.reset with pending := p, reply := y, epoch := e } where
  pixIn_wf := .nil
  smpIn_wf := .nil
  pixOut_wf := .nil
  smpOut_wf := .nil
  pixIn_within := List.forall_mem_nil _
  smpIn_within := List.forall_mem_nil _
  pixOut_within := List.forall_mem_nil _
  smpOut_within := List.forall_mem_nil _
  status_reserved := by show (0#8).extractLsb' 2 6 = 0; decide
  errcode_le := Nat.zero_le 4
  err_iff := iff_of_false (fun h => h rfl) (by rw [err_of_status_zero rfl]; decide)
  not_done := fun _ => ⟨err_of_status_zero rfl, rfl, rfl, rfl, rfl⟩
  nslots_eq := rfl
  tiling := ⟨.exact16, rfl, rfl, rfl⟩

theorem inv_applyReset (s : State) : Inv (applyReset s) := inv_reset_with s.pending s.reply (s.epoch + 1)

/-- Settles O48: State.reset has the model's own fields at empty, none and 0. -/
theorem resetMeetsTheInvariant : Obligations.ResetMeetsTheInvariant := inv_reset_with [] none 0

/-! ## The commands -/

theorem inv_raise {s : State} (hi : Inv s) (e : CommandError) : Inv (raise e s) where
  pixIn_wf := hi.pixIn_wf
  smpIn_wf := hi.smpIn_wf
  pixOut_wf := hi.pixOut_wf
  smpOut_wf := hi.smpOut_wf
  pixIn_within := hi.pixIn_within
  smpIn_within := hi.smpIn_within
  pixOut_within := hi.pixOut_within
  smpOut_within := hi.smpOut_within
  status_reserved := (reports_raise e s).reserved
  errcode_le := (reports_raise e s).errcode_le
  err_iff := (reports_raise e s).err_iff
  not_done := fun h => absurd ((raise_done e s).symm.trans h) (by decide)
  nslots_eq := hi.nslots_eq
  tiling := hi.tiling

/-- A success writes a mode's plan and keeps the invariant when the output buffers it leaves are canonical. -/
theorem inv_complete_writePlan {s : State} (hi : Inv s) (m : Mode) {po : Memory 8} {so : Memory 16}
    (hpo : Memory.wf po) (hpoW : Memory.within po pixElements)
    (hso : Memory.wf so) (hsoW : Memory.within so smpElements) :
    Inv (complete { writePlan (planOf m s) s with pixOut := po, smpOut := so }) := by
  obtain ⟨hth, htw, hcap, hn⟩ := writePlan_toNat m s s
  have hrep := reports_complete { writePlan (planOf m s) s with pixOut := po, smpOut := so }
  exact {
    pixIn_wf := hi.pixIn_wf
    smpIn_wf := hi.smpIn_wf
    pixOut_wf := hpo
    smpOut_wf := hso
    pixIn_within := hi.pixIn_within
    smpIn_within := hi.smpIn_within
    pixOut_within := hpoW
    smpOut_within := hsoW
    status_reserved := hrep.reserved
    errcode_le := hrep.errcode_le
    err_iff := hrep.err_iff
    not_done := fun h => absurd (hrep.done.symm.trans h) (by decide)
    nslots_eq := by
      show (writePlan (planOf m s) s).nslots.toNat =
        (writePlan (planOf m s) s).theight.toNat * (writePlan (planOf m s) s).twidth.toNat * 3
      rw [hn, hth, htw]
      exact plan_nslots m _ _
    tiling := by
      refine ⟨m, ?_, ?_, ?_⟩
      · show (writePlan (planOf m s) s).capacity.toNat * slotsOf m = (writePlan (planOf m s) s).nslots.toNat
        rw [hcap, hn, planOf_nslots_eq]
      · show (writePlan (planOf m s) s).theight.toNat % hdivOf m = 0
        rw [hth, planOf, plan_th, trim_mod]
      · show (writePlan (planOf m s) s).twidth.toNat % wdivOf m = 0
        rw [htw, planOf, plan_tw, trim_mod] }

/-- ENC writes inside PIX_OUT (R63, R64). -/
theorem encWrites_within (m : Mode) (s : State) : ∀ q ∈ encWrites m s, q.1 < pixElements := fun q hq => by
  obtain ⟨f, hf, rfl⟩ := mem_encWrites.1 hq
  obtain ⟨-, -, -, hn⟩ := planOf_fits m s
  exact hf.trans hn

/-- DEC writes inside SMP_OUT (R63, R64). -/
theorem decWrites_within (m : Mode) (s : State) : ∀ q ∈ decWrites m s, q.1 < smpElements := fun q hq => by
  obtain ⟨g, hg, rfl⟩ := mem_decWrites.1 hq
  obtain ⟨-, -, hcap, -⟩ := planOf_fits m s
  exact hg.trans hcap

theorem inv_encoded {s : State} (hi : Inv s) (m : Mode) : Inv (encoded m s) :=
  inv_complete_writePlan hi m (Memory.wf_writeAll hi.pixOut_wf _)
    (Memory.within_writeAll hi.pixOut_within _ (encWrites_within m s)) hi.smpOut_wf hi.smpOut_within

theorem inv_decoded {s : State} (hi : Inv s) (m : Mode) : Inv (decoded m s) :=
  inv_complete_writePlan hi m hi.pixOut_wf hi.pixOut_within (Memory.wf_writeAll hi.smpOut_wf _)
    (Memory.within_writeAll hi.smpOut_within _ (decWrites_within m s))

theorem inv_runCommandWord {c : CommandWord} {s t : State} (hi : Inv s) (h : runCommandWord c s = .next t) : Inv t := by
  rcases runCommandWord_outcome c s with ⟨e, h'⟩ | ⟨m, _, h'⟩ | ⟨m, _, h'⟩ | ⟨m, _, h'⟩ <;> cases h.symm.trans h'
  · exact inv_raise hi e
  · exact inv_complete_writePlan hi m hi.pixOut_wf hi.pixOut_within hi.smpOut_wf hi.smpOut_within
  · exact inv_encoded hi m
  · exact inv_decoded hi m

/-! ## Every step -/

/-- A register write of the host reaches the operands alone, and the invariant does not speak of them. -/
theorem inv_writeReg {s : State} (hi : Inv s) (r : Reg) (v : BitVec r.bits) : Inv (writeReg s r v) := by
  cases r <;> exact { hi with }

theorem inv_hostAct {a : HostAction} {s t : State} (hi : Inv s) (h : hostAct a s = .next t) : Inv t := by
  rcases hostAct_cases h with
    ⟨_, rfl⟩ | ⟨c, _, hrun⟩ | ⟨r, v, rfl⟩ | ⟨y, rfl⟩ | ⟨i, vs, hfit, rfl⟩ | ⟨i, vs, hfit, rfl⟩
  · exact inv_applyReset s
  · exact inv_runCommandWord hi hrun
  · exact inv_writeReg hi r v
  · exact { hi with }
  · exact { hi with
      pixIn_wf := Memory.wf_writeRun hi.pixIn_wf vs i
      pixIn_within := Memory.within_writeRun hi.pixIn_within vs i hfit }
  · exact { hi with
      smpIn_wf := Memory.wf_writeRun hi.smpIn_wf vs i
      smpIn_within := Memory.within_writeRun hi.smpIn_within vs i hfit }

/-- Settles O47: the queue does not enter the invariant, and every host action keeps it. -/
theorem stepKeepsTheInvariant : Obligations.StepKeepsTheInvariant := by
  intro s t hi h
  rcases step_cases h with ⟨_, rfl⟩ | ⟨a, rest, _, hact⟩
  · exact hi
  · have hi' : Inv { s with pending := rest } := { hi with }
    exact inv_hostAct hi' hact

end Sys2Proof.Machine
end

section
/-! A command is a function of its word, its operands and its input extents (10_state.md R26, R29). -/

namespace Sys2Proof.Machine

/-! ## The answers on operands that are not legal -/

theorem planCommand_of_not_ready {m : Mode} {s : State} (h : ¬ PlanReady s) :
    planCommand m s = .next (raise .preconditionViolated s) :=
  ((planCommand_cases m s).resolve_right fun h' => h h'.1).2

theorem exec_decInstr_of_not_ready {m : Mode} {s : State} (h : ¬ DecReady s) :
    exec (decInstr m) s = .next (raise .malformedCarrier s) :=
  ((exec_decInstr_cases m s).resolve_right fun h' => h h'.1).2

theorem exec_encInstr_of_unsupported {m : Mode} {s : State} (h : ¬ (s.channels = 1 ∨ s.channels = 3)) :
    exec (encInstr m) s = .next (raise .unsupportedCarrierShape s) := by
  rcases exec_encInstr_cases m s with ⟨_, h'⟩ | ⟨hc, _, _⟩ | ⟨hr, _⟩
  · exact h'
  · exact absurd hc h
  · exact absurd hr.1 h

theorem exec_encInstr_of_zero {m : Mode} {s : State} (hc : s.channels = 1 ∨ s.channels = 3) (h : ¬ PlanReady s) :
    exec (encInstr m) s = .next (raise .preconditionViolated s) := by
  rcases exec_encInstr_cases m s with ⟨hn, _⟩ | ⟨_, _, h'⟩ | ⟨hr, _⟩
  · exact absurd hc hn
  · exact h'
  · exact absurd hr.2 h

/-! ## Operands a command ignores (R26) -/

/-- PLAN with other CHANNELS and NSAMPLES answers the same but for these. -/
theorem planCommand_ignores (m : Mode) (s : State) (c : BitVec 8) (n : BitVec Config.lenBits) :
    ∃ t, planCommand m s = .next t ∧
      planCommand m { s with channels := c, nsamples := n } = .next { t with channels := c, nsamples := n } := by
  rcases planCommand_cases m s with ⟨h, hs⟩ | ⟨h, hs⟩
  · exact ⟨_, hs, planCommand_of_not_ready h⟩
  · exact ⟨_, hs, planCommand_of_ready h⟩

theorem decWrites_nsamples (m : Mode) (s : State) (n : BitVec Config.lenBits) :
    decWrites m { s with nsamples := n } = decWrites m s := by cases m <;> rfl

theorem decoded_nsamples (m : Mode) (s : State) (n : BitVec Config.lenBits) :
    decoded m { s with nsamples := n } = { decoded m s with nsamples := n } := by
  rw [decoded, decWrites_nsamples]; rfl

/-- DEC with another NSAMPLES answers the same but for it. -/
theorem exec_decInstr_ignores (m : Mode) (s : State) (n : BitVec Config.lenBits) :
    ∃ t, exec (decInstr m) s = .next t ∧
      exec (decInstr m) { s with nsamples := n } = .next { t with nsamples := n } := by
  rcases exec_decInstr_cases m s with ⟨h, hs⟩ | ⟨h, hs⟩
  · exact ⟨_, hs, exec_decInstr_of_not_ready h⟩
  · refine ⟨_, hs, ?_⟩
    rw [← decoded_nsamples]
    exact exec_decInstr_of_ready h

/-- Settles O18, from what PLAN and what DEC ignore. -/
theorem ignoredOperandsHaveNoEffect : Obligations.IgnoredOperandsHaveNoEffect := by
  refine ⟨fun m s c n => ?_, exec_decInstr_ignores⟩
  rw [exec_planInstr, exec_planInstr]
  exact planCommand_ignores m s c n

/-! ## Two states with the same inputs (R29) -/

/-- The states agree in the operands and in what the elements of the input extents read as. -/
structure SameInputs (s s' : State) : Prop where
  height : s'.height = s.height
  width : s'.width = s.width
  channels : s'.channels = s.channels
  nsamples : s'.nsamples = s.nsamples
  pixIn : ∀ a < s.height.toNat * s.width.toNat * s.channels.toNat, readPixIn s' a = readPixIn s a
  smpIn : ∀ a < s.nsamples.toNat, readSmpIn s' a = readSmpIn s a

section
variable {s s' : State} (h : SameInputs s s')
include h

theorem SameInputs.planOf_eq (m : Mode) : planOf m s' = planOf m s := by
  rw [planOf, planOf, h.height, h.width]

theorem SameInputs.planReady_iff : PlanReady s' ↔ PlanReady s := by rw [PlanReady, PlanReady, h.height, h.width]

theorem SameInputs.encReady_iff : EncReady s' ↔ EncReady s := by rw [EncReady, EncReady, h.channels, h.planReady_iff]

theorem SameInputs.decReady_iff : DecReady s' ↔ DecReady s := by rw [DecReady, DecReady, h.channels, h.planReady_iff]

theorem SameInputs.sampleFor_eq (g : Nat) : sampleFor s' g = sampleFor s g := by
  rw [sampleFor, sampleFor, h.nsamples]
  split_ifs with hg
  · exact h.smpIn g hg
  · rfl

end

/-! ## The carrier bytes lie in the input extent (R55, R64) -/

theorem planOf_th_le (m : Mode) (s : State) : (planOf m s).th ≤ s.height.toNat := plan_th m _ _ ▸ trim_le ..

theorem planOf_tw_le (m : Mode) (s : State) : (planOf m s).tw ≤ s.width.toNat := plan_tw m _ _ ▸ trim_le ..

/-- Row and column of a flat index of the extent are those of an element of the presented carrier. -/
theorem rowOf_colOf_lt {m : Mode} {s : State} {f : Nat} (hf : f < (planOf m s).nslots) :
    rowOf (planOf m s).tw f < s.height.toNat ∧ colOf (planOf m s).tw f < s.width.toNat := by
  have hf' : f / nchan < (planOf m s).th * (planOf m s).tw := by
    have : (planOf m s).nslots = (planOf m s).th * (planOf m s).tw * 3 := plan_nslots m _ _
    rw [nchan]; omega
  have htw : 0 < (planOf m s).tw := Nat.pos_of_ne_zero fun h0 => by simp [h0] at hf'
  have hrow : rowOf (planOf m s).tw f < (planOf m s).th := Nat.div_lt_of_lt_mul (Nat.mul_comm _ _ ▸ hf')
  have hcol : colOf (planOf m s).tw f < (planOf m s).tw := Nat.mod_lt _ htw
  exact ⟨hrow.trans_le (planOf_th_le m s), hcol.trans_le (planOf_tw_le m s)⟩

/-- The address of an element of the presented carrier lies in PIX_IN's extent. -/
theorem ain_lt {H W C r c ch : Nat} (hC : C = 1 ∨ C = 3) (hr : r < H) (hc : c < W) (hch : ch < 3) :
    ain W C r c ch < H * W * C := by
  have hpix : r * W + c < H * W := by
    have : (r + 1) * W ≤ H * W := Nat.mul_le_mul_right W hr
    linarith
  rcases hC with rfl | rfl
  · simpa [ain, nchan] using hpix
  · simp only [ain, nchan, if_true]; omega

theorem SameInputs.trimmedByte_eq {s s' : State} (h : SameInputs s s') (hc : s.channels = 1 ∨ s.channels = 3)
    {m : Mode} {f : Nat} (hf : f < (planOf m s).nslots) : trimmedByte m s' f = trimmedByte m s f := by
  obtain ⟨hrow, hcol⟩ := rowOf_colOf_lt hf
  have hC : s.channels.toNat = 1 ∨ s.channels.toNat = 3 := hc.imp (congrArg BitVec.toNat) (congrArg BitVec.toNat)
  rw [trimmedByte, trimmedByte, promoted, promoted, h.planOf_eq, h.width, h.channels]
  exact h.pixIn _ (ain_lt hC hrow hcol (Nat.mod_lt f three_pos))

theorem SameInputs.encodedByte_eq {s s' : State} (h : SameInputs s s') (hc : s.channels = 1 ∨ s.channels = 3)
    {m : Mode} {f : Nat} (hf : f < (planOf m s).nslots) : encodedByte m s' f = encodedByte m s f := by
  rw [encodedByte, encodedByte, h.trimmedByte_eq hc hf, h.sampleFor_eq]

/-- On a 3-channel carrier DEC and ENC read the same byte of PIX_IN for a flat index. -/
theorem carrierByte_eq_trimmedByte {s : State} (hc : s.channels = 3) (m : Mode) (f : Nat) :
    carrierByte m s f = trimmedByte m s f := by
  rw [carrierByte, trimmedByte, colourByte, promoted, hc]; rfl

theorem SameInputs.decodedSample_eq {s s' : State} (h : SameInputs s s') (hc : s.channels = 3)
    {m : Mode} {g : Nat} (hg : g < (planOf m s).cap) : decodedSample m s' g = decodedSample m s g := by
  have hdigit : ∀ k ∈ Finset.range (slotsOf m), slotDigit m s' g k = slotDigit m s g k := fun k hk => by
    have hf : slotsOf m * g + k < (planOf m s).nslots := by
      have : (g + 1) * slotsOf m ≤ (planOf m s).cap * slotsOf m := Nat.mul_le_mul_right _ hg
      rw [planOf_nslots_eq]
      linarith [Finset.mem_range.1 hk]
    rw [slotDigit, slotDigit, carrierByte_eq_trimmedByte hc, carrierByte_eq_trimmedByte (h.channels.trans hc),
      h.trimmedByte_eq (.inr hc) hf]
  have hvalue : groupValue m s' g = groupValue m s g := Finset.sum_congr rfl fun k hk => by rw [hdigit k hk]
  rw [decodedSample, decodedSample, hvalue]

/-! ## The outcomes agree -/

theorem planInstr_ne_encInstr (m m' : Mode) : planInstr m ≠ encInstr m' := by cases m <;> cases m' <;> decide

theorem planInstr_ne_decInstr (m m' : Mode) : planInstr m ≠ decInstr m' := by cases m <;> cases m' <;> decide

theorem encInstr_ne_decInstr (m m' : Mode) : encInstr m ≠ decInstr m' := by cases m <;> cases m' <;> decide

/-- Two final states of the command `i` that agree in STATUS and ERRCODE and, on success, in the results and in the
extent of the command's output buffer. -/
structure SameOutcome (i : Instr) (t t' : State) : Prop where
  status : t'.status = t.status
  errcode : t'.errcode = t.errcode
  results : t.err = false →
    t'.theight = t.theight ∧ t'.twidth = t.twidth ∧ t'.capacity = t.capacity ∧ t'.nslots = t.nslots
  pixOut : t.err = false → ∀ m, i = encInstr m →
    ∀ f < t.nslots.toNat, Memory.read? t'.pixOut f = Memory.read? t.pixOut f
  smpOut : t.err = false → ∀ m, i = decInstr m →
    ∀ g < t.capacity.toNat, Memory.read? t'.smpOut g = Memory.read? t.smpOut g

theorem sameOutcome_raise (i : Instr) (e : CommandError) (s s' : State) :
    SameOutcome i (raise e s) (raise e s') where
  status := rfl
  errcode := rfl
  results hok := by simp at hok
  pixOut hok := by simp at hok
  smpOut hok := by simp at hok

theorem SameInputs.sameOutcome_planned {s s' : State} (h : SameInputs s s') (m : Mode) :
    SameOutcome (planInstr m) (complete (writePlan (planOf m s) s))
      (complete (writePlan (planOf m s') s')) where
  status := rfl
  errcode := rfl
  results _ := by rw [h.planOf_eq]; exact ⟨rfl, rfl, rfl, rfl⟩
  pixOut _ m' hi := absurd hi (planInstr_ne_encInstr m m')
  smpOut _ m' hi := absurd hi (planInstr_ne_decInstr m m')

theorem encoded_nslots_toNat (m : Mode) (s : State) : (encoded m s).nslots.toNat = (planOf m s).nslots := by
  obtain ⟨-, -, -, hn⟩ := writePlan_toNat m s s
  exact hn

theorem decoded_capacity_toNat (m : Mode) (s : State) : (decoded m s).capacity.toNat = (planOf m s).cap := by
  obtain ⟨-, -, hcap, -⟩ := writePlan_toNat m s s
  exact hcap

theorem SameInputs.sameOutcome_encoded {s s' : State} (h : SameInputs s s') (hc : s.channels = 1 ∨ s.channels = 3)
    (m : Mode) : SameOutcome (encInstr m) (encoded m s) (encoded m s') where
  status := rfl
  errcode := rfl
  results _ := by rw [encoded, encoded, h.planOf_eq]; exact ⟨rfl, rfl, rfl, rfl⟩
  pixOut _ m' hi f hf := by
    rw [encoded_nslots_toNat] at hf
    have hf' : f < (planOf m s').nslots := by rwa [h.planOf_eq]
    rw [read?_encoded_pixOut hf, read?_encoded_pixOut hf', h.encodedByte_eq hc hf]
  smpOut _ m' hi := absurd hi (encInstr_ne_decInstr m m')

theorem SameInputs.sameOutcome_decoded {s s' : State} (h : SameInputs s s') (hc : s.channels = 3) (m : Mode) :
    SameOutcome (decInstr m) (decoded m s) (decoded m s') where
  status := rfl
  errcode := rfl
  results _ := by rw [decoded, decoded, h.planOf_eq]; exact ⟨rfl, rfl, rfl, rfl⟩
  pixOut _ m' hi := absurd hi.symm (encInstr_ne_decInstr m' m)
  smpOut _ m' hi g hg := by
    rw [decoded_capacity_toNat] at hg
    have hg' : g < (planOf m s').cap := by rwa [h.planOf_eq]
    rw [read?_decoded_smpOut hg, read?_decoded_smpOut hg', h.decodedSample_eq hc hg]

/-- The checks depend on HEIGHT, WIDTH and CHANNELS, so both runs take the same branch; the outcomes agree on each. -/
theorem SameInputs.exec_sameOutcome {s s' : State} (h : SameInputs s s') (i : Instr) :
    ∃ t t', exec i s = .next t ∧ exec i s' = .next t' ∧ SameOutcome i t t' := by
  have hchan : (s'.channels = 1 ∨ s'.channels = 3) ↔ (s.channels = 1 ∨ s.channels = 3) := by rw [h.channels]
  obtain ⟨m, rfl | rfl | rfl⟩ := instr_cases i
  · rw [exec_planInstr, exec_planInstr]
    rcases planCommand_cases m s with ⟨hn, hs⟩ | ⟨hr, hs⟩
    · exact ⟨_, _, hs, planCommand_of_not_ready (h.planReady_iff.not.2 hn), sameOutcome_raise ..⟩
    · exact ⟨_, _, hs, planCommand_of_ready (h.planReady_iff.2 hr), h.sameOutcome_planned m⟩
  · rcases exec_encInstr_cases m s with ⟨hn, hs⟩ | ⟨hc, hn, hs⟩ | ⟨hr, hs⟩
    · exact ⟨_, _, hs, exec_encInstr_of_unsupported (hchan.not.2 hn), sameOutcome_raise ..⟩
    · exact ⟨_, _, hs, exec_encInstr_of_zero (hchan.2 hc) (h.planReady_iff.not.2 hn), sameOutcome_raise ..⟩
    · exact ⟨_, _, hs, exec_encInstr_of_ready (h.encReady_iff.2 hr), h.sameOutcome_encoded hr.1 m⟩
  · rcases exec_decInstr_cases m s with ⟨hn, hs⟩ | ⟨hr, hs⟩
    · exact ⟨_, _, hs, exec_decInstr_of_not_ready (h.decReady_iff.not.2 hn), sameOutcome_raise ..⟩
    · exact ⟨_, _, hs, exec_decInstr_of_ready (h.decReady_iff.2 hr), h.sameOutcome_decoded hr.1 m⟩

/-- Settles O17: a reserved word ends alike from any two states, and a command's outcomes agree. -/
theorem commandsDependOnlyOnTheirInputs : Obligations.CommandsDependOnlyOnTheirInputs := by
  intro c s s' hh hw hc hn hpix hsmp
  have h : SameInputs s s' := ⟨hh, hw, hc, hn, hpix, hsmp⟩
  cases hd : decode c with
  | error e =>
    exact ⟨_, _, runCommandWord_of_decode_error hd s, runCommandWord_of_decode_error hd s', rfl, rfl,
      fun hok => by simp at hok⟩
  | ok i =>
    obtain ⟨t, t', hs, hs', ho⟩ := h.exec_sameOutcome i
    refine ⟨t, t', (runCommandWord_of_decode_ok hd s).trans hs, (runCommandWord_of_decode_ok hd s').trans hs',
      ho.status, ho.errcode, fun hok => ?_⟩
    obtain ⟨hth, htw, hcap, hns⟩ := ho.results hok
    exact ⟨hth, htw, hcap, hns, fun m hm => ho.pixOut hok m (Except.ok.inj hm),
      fun m hm => ho.smpOut hok m (Except.ok.inj hm)⟩

end Sys2Proof.Machine
end

section
/-! The buffer memories as the host and the commands reach them: the flat index (20_memory.md R56), which host runs a
space has (R50, R63, R64), the frame of ENC and DEC (R58), and that only written elements reach a result (R66). -/

namespace Sys2Proof.Machine

/-! ## The flat index (R56) -/

theorem flat_lt {th tw r c ch : Nat} (hr : r < th) (hc : c < tw) (hch : ch < 3) : flat tw r c ch < th * tw * 3 := by
  have hrows : (r + 1) * tw ≤ th * tw := Nat.mul_le_mul_right tw hr
  simp only [flat, nchan]
  linarith

theorem flat_rowOf_colOf_chanOf (tw f : Nat) : flat tw (rowOf tw f) (colOf tw f) (chanOf f) = f := by
  rw [flat, rowOf, colOf, chanOf, Nat.div_add_mod', Nat.div_add_mod']

theorem rowOf_lt_colOf_lt {th tw f : Nat} (hf : f < th * tw * 3) : rowOf tw f < th ∧ colOf tw f < tw := by
  have hpix : f / nchan < tw * th := Nat.div_lt_of_lt_mul (by rw [nchan]; linarith)
  exact ⟨Nat.div_lt_of_lt_mul hpix, Nat.mod_lt _ (Nat.pos_of_mul_pos_right (Nat.zero_lt_of_lt hpix))⟩

/-- Settles O46: the pixel is split off by 3, then the column by the width. -/
theorem flatIndexIsABijection : Obligations.FlatIndexIsABijection := by
  refine ⟨fun th tw r c ch hr hc hch => ?_, fun th tw f hf => ?_⟩
  · exact ⟨flat_lt hr hc hch, rowOf_flat r hc hch, colOf_flat r hc hch, chanOf_flat tw r c hch⟩
  · obtain ⟨hrow, hcol⟩ := rowOf_lt_colOf_lt hf
    exact ⟨hrow, hcol, Nat.mod_lt f three_pos, flat_rowOf_colOf_chanOf tw f⟩

/-! ## The runs a space has (R50, R63, R64) -/

theorem runCommandWord_answers (c : CommandWord) (s : State) : ∃ t, runCommandWord c s = .next t := by
  rcases runCommandWord_outcome c s with ⟨_, h⟩ | ⟨_, _, h⟩ | ⟨_, _, h⟩ | ⟨_, _, h⟩ <;> exact ⟨_, h⟩

theorem hostSet_answers (s : State) (r : Reg) (v : BitVec r.bits) : ∃ t, hostSet s r v = .next t := by
  by_cases hr : r = .cmd
  · subst hr; exact runCommandWord_answers v s
  · exact ⟨_, hostSet_of_ne_cmd s r v hr⟩

/-- The outcome goes on and `P` holds, or it is the fault of a run past the end and `P` does not hold. -/
def GoesOnExactlyIf (P : Prop) (o : Host.Outcome State Fault Refusal) : Prop :=
  (P ∧ ∃ t, o = .next t) ∨ (¬ P ∧ o = .fault .noSuchElement)

theorem goesOnExactlyIf_runFits {P : Prop} {i count n : Nat} (hP : P ↔ i + count ≤ n) (t : State) :
    GoesOnExactlyIf P (if runFits i count n then .next t else .fault .noSuchElement) := by
  by_cases h : P
  · exact .inl ⟨h, t, if_pos (runFits_eq_true.2 (hP.1 h))⟩
  · exact .inr ⟨h, if_neg fun hfit => h (hP.2 (runFits_eq_true.1 hfit))⟩

theorem hostAct_goesOnExactlyIf_fits (a : HostAction) (s : State) : GoesOnExactlyIf a.Fits (hostAct a s) := by
  cases a with
  | reset => exact .inl ⟨trivial, _, rfl⟩
  | set r v => exact .inl ⟨trivial, hostSet_answers s r v⟩
  | get r => exact .inl ⟨trivial, _, rfl⟩
  | fillPixIn i vs => exact goesOnExactlyIf_runFits .rfl _
  | fillSmpIn i vs => exact goesOnExactlyIf_runFits .rfl _
  | dumpPixOut i count => exact goesOnExactlyIf_runFits .rfl _
  | dumpSmpOut i count => exact goesOnExactlyIf_runFits .rfl _
  | copyPixOut count => exact goesOnExactlyIf_runFits (by rw [Nat.zero_add]; exact .rfl) _

/-- Settles O6: an idle step goes on, and any other step is a host action, which goes on exactly when it fits. -/
theorem stepStopsOnlyOnAHostRunPastTheEnd : Obligations.StepStopsOnlyOnAHostRunPastTheEnd := by
  refine fun s => ⟨fun hfits => ?_, fun ⟨a, rest, hp, hnot⟩ => ?_⟩
  · cases hp : s.pending with
    | nil => exact ⟨s, step_nil hp⟩
    | cons a rest =>
      rw [step_cons hp]
      obtain ⟨_, hnext⟩ | ⟨hnot, _⟩ := hostAct_goesOnExactlyIf_fits a { s with pending := rest }
      · exact hnext
      · exact absurd (hfits a rest hp) hnot
  · rw [step_cons hp]
    obtain ⟨hfit, _⟩ | ⟨_, hfault⟩ := hostAct_goesOnExactlyIf_fits a { s with pending := rest }
    · exact absurd hfit hnot
    · exact hfault

/-! ## The frame of ENC and DEC (R26, R58, R199) -/

theorem read?_encoded_pixOut_of_le {m : Mode} {s : State} {a : Nat} (ha : (planOf m s).nslots ≤ a) :
    Memory.read? (encoded m s).pixOut a = Memory.read? s.pixOut a := by
  refine Memory.read?_writeAll_of_not_mem _ _ a fun q hq => ?_
  obtain ⟨f, hf, rfl⟩ := mem_encWrites.1 hq
  exact (hf.trans_le ha).ne

theorem read?_decoded_smpOut_of_le {m : Mode} {s : State} {a : Nat} (ha : (planOf m s).cap ≤ a) :
    Memory.read? (decoded m s).smpOut a = Memory.read? s.smpOut a := by
  refine Memory.read?_writeAll_of_not_mem _ _ a fun q hq => ?_
  obtain ⟨g, hg, rfl⟩ := mem_decWrites.1 hq
  exact (hg.trans_le ha).ne

/-- Settles O29: the results are the plan written, and every write lies in the extent. -/
theorem encodeChangesOnlyItsExtent : Obligations.EncodeChangesOnlyItsExtent := by
  intro m s h
  obtain ⟨hth, htw, hcap, hn⟩ := writePlan_toNat m s s
  exact ⟨encoded m s, exec_encInstr_of_ready h, hth, htw, hcap, hn, rfl, fun _ => read?_encoded_pixOut_of_le⟩

/-- Settles O36, as O29 with SMP_OUT and CAPACITY. -/
theorem decodeChangesOnlyItsExtent : Obligations.DecodeChangesOnlyItsExtent := by
  intro m s h
  obtain ⟨hth, htw, hcap, hn⟩ := writePlan_toNat m s s
  exact ⟨decoded m s, exec_decInstr_of_ready h, hth, htw, hcap, hn, rfl, fun _ => read?_decoded_smpOut_of_le⟩

/-! ## A written element reads alike in every epoch (R66) -/

theorem readPixIn_epoch {s : State} {a : Nat} (h : (Memory.read? s.pixIn a).isSome) (e : Nat) :
    readPixIn { s with epoch := e } a = readPixIn s a := by
  obtain ⟨v, hv⟩ := Option.isSome_iff_exists.1 h
  simp [readPixIn, hv]

theorem readSmpIn_epoch {s : State} {g : Nat} (h : (Memory.read? s.smpIn g).isSome) (e : Nat) :
    readSmpIn { s with epoch := e } g = readSmpIn s g := by
  obtain ⟨v, hv⟩ := Option.isSome_iff_exists.1 h
  simp [readSmpIn, hv]

theorem encodedByte_epoch {m : Mode} {s : State} (h : EncReadSetWritten m s) (e : Nat) {f : Nat}
    (hf : f < (planOf m s).nslots) : encodedByte m { s with epoch := e } f = encodedByte m s f := by
  obtain ⟨hpix, hsmp⟩ := h
  have hbyte : trimmedByte m { s with epoch := e } f = trimmedByte m s f := readPixIn_epoch (hpix f hf) e
  have hgroup : f / slotsOf m < (planOf m s).cap :=
    Nat.div_lt_of_lt_mul (by rwa [Nat.mul_comm, ← planOf_nslots_eq])
  have hsample : sampleFor { s with epoch := e } (f / slotsOf m) = sampleFor s (f / slotsOf m) := by
    unfold sampleFor
    split_ifs with hg
    · exact readSmpIn_epoch (hsmp _ (lt_min hg hgroup)) e
    · rfl
  rw [encodedByte, encodedByte, hbyte, hsample]

theorem group_slot_lt_nslots {m : Mode} {s : State} {g k : Nat} (hg : g < (planOf m s).cap) (hk : k < slotsOf m) :
    slotsOf m * g + k < (planOf m s).nslots := by
  have hgroups : (g + 1) * slotsOf m ≤ (planOf m s).cap * slotsOf m := Nat.mul_le_mul_right _ hg
  rw [planOf_nslots_eq]
  linarith

/-- A decoded sample depends on the carrier bytes of its own group's slots alone. -/
theorem decodedSample_congr {m : Mode} {s s' : State} {g : Nat}
    (h : ∀ k < slotsOf m, carrierByte m s' (slotsOf m * g + k) = carrierByte m s (slotsOf m * g + k)) :
    decodedSample m s' g = decodedSample m s g := by
  have hvalue : groupValue m s' g = groupValue m s g :=
    Finset.sum_congr rfl fun k hk => by rw [slotDigit, slotDigit, h k (Finset.mem_range.1 hk)]
  rw [decodedSample, decodedSample, hvalue]

theorem decodedSample_epoch {m : Mode} {s : State} (h : DecReadSetWritten m s) (e : Nat) {g : Nat}
    (hg : g < (planOf m s).cap) : decodedSample m { s with epoch := e } g = decodedSample m s g :=
  decodedSample_congr fun _ hk => readPixIn_epoch (h _ (group_slot_lt_nslots hg hk)) e

/-! ## The writes are the same, one by one -/

/-- Lists of writes to the same elements in the same order are equal when one function gives all their values. -/
theorem writes_eq_of_fst_eq {w : Nat} {ps qs : List (Nat × BitVec w)} (v : Nat → BitVec w)
    (hfst : ps.map Prod.fst = qs.map Prod.fst) (hp : ∀ p ∈ ps, p = (p.1, v p.1)) (hq : ∀ q ∈ qs, q = (q.1, v q.1)) :
    ps = qs := by
  have hrebuild (l : List (Nat × BitVec w)) (hl : ∀ x ∈ l, x = (x.1, v x.1)) :
      (l.map Prod.fst).map (fun a => (a, v a)) = l := by
    rw [List.map_map]
    exact (List.map_congr_left fun x hx => (hl x hx).symm).trans (List.map_id l)
  rw [← hrebuild ps hp, hfst, hrebuild qs hq]

theorem map_fst_packLoop (cell : Nat → Nat × Byte) (k n : Nat) (v : Sample) :
    (packLoop cell k n v).map Prod.fst = (List.range' k n).map fun j => (cell j).1 := by
  induction n generalizing k v with
  | zero => rfl
  | succ n ih => rw [packLoop, List.map_cons, ih, List.range'_succ, List.map_cons]

/-- Which elements ENC writes, and in which order, is no matter of the epoch. -/
theorem map_fst_encWrites_epoch (m : Mode) (s : State) (e : Nat) :
    (encWrites m { s with epoch := e }).map Prod.fst = (encWrites m s).map Prod.fst := by
  cases m with
  | exact16 => simp only [encWrites, encWritesExact16, List.map_flatMap, map_fst_packLoop]; rfl
  | packed12 => simp only [encWrites, encWritesPacked12, List.map_flatMap, map_fst_packLoop]; rfl

/-- Which elements DEC writes, and in which order, is no matter of the epoch. -/
theorem map_fst_decWrites_epoch (m : Mode) (s : State) (e : Nat) :
    (decWrites m { s with epoch := e }).map Prod.fst = (decWrites m s).map Prod.fst := by
  cases m with
  | exact16 => simp only [decWrites, decWritesExact16, List.map_map]; rfl
  | packed12 => simp only [decWrites, decWritesPacked12, List.map_flatMap, List.map_map]; rfl

theorem encWrites_epoch {m : Mode} {s : State} (h : EncReadSetWritten m s) (e : Nat) :
    encWrites m { s with epoch := e } = encWrites m s := by
  refine writes_eq_of_fst_eq (encodedByte m s) (map_fst_encWrites_epoch m s e) (fun p hp => ?_) fun q hq => ?_
  · obtain ⟨f, hf, rfl⟩ := mem_encWrites.1 hp
    rw [encodedByte_epoch h e hf]
  · obtain ⟨f, _, rfl⟩ := mem_encWrites.1 hq
    rfl

theorem decWrites_epoch {m : Mode} {s : State} (h : DecReadSetWritten m s) (e : Nat) :
    decWrites m { s with epoch := e } = decWrites m s := by
  refine writes_eq_of_fst_eq (decodedSample m s) (map_fst_decWrites_epoch m s e) (fun p hp => ?_) fun q hq => ?_
  · obtain ⟨g, hg, rfl⟩ := mem_decWrites.1 hp
    rw [decodedSample_epoch h e hg]
  · obtain ⟨g, _, rfl⟩ := mem_decWrites.1 hq
    rfl

theorem encoded_epoch {m : Mode} {s : State} (h : EncReadSetWritten m s) (e : Nat) :
    encoded m { s with epoch := e } = { encoded m s with epoch := e } := by
  rw [encoded, encWrites_epoch h]; rfl

theorem decoded_epoch {m : Mode} {s : State} (h : DecReadSetWritten m s) (e : Nat) :
    decoded m { s with epoch := e } = { decoded m s with epoch := e } := by
  rw [decoded, decWrites_epoch h]; rfl

/-- Settles O34: the checks and the plan do not read the epoch, and the writes are the same. -/
theorem writtenInputsLeaveNoFreeValue : Obligations.WrittenInputsLeaveNoFreeValue := by
  refine ⟨fun m s e hr hw => ⟨encoded m s, exec_encInstr_of_ready hr, ?_⟩,
    fun m s e hr hw => ⟨decoded m s, exec_decInstr_of_ready hr, ?_⟩⟩
  · rw [← encoded_epoch hw]
    exact exec_encInstr_of_ready hr
  · rw [← decoded_epoch hw]
    exact exec_decInstr_of_ready hr

end Sys2Proof.Machine
end

section
/-! The command word: its fields, its six commands and its reserved words (30_encoding.md R81, R82, R84, R85). -/

namespace Sys2Proof

/-! ## Words and commands -/

/-- The fields RSV, M and OP make up the whole word (R81). -/
theorem CommandWord.eq_of_fields {c d : CommandWord} (hrsv : c.extractLsb' 3 5 = d.extractLsb' 3 5)
    (hm : c.getLsbD 2 = d.getLsbD 2) (hop : c.extractLsb' 0 2 = d.extractLsb' 0 2) : c = d := by
  refine BitVec.eq_of_getLsbD_eq fun i hi => ?_
  obtain hlow | rfl | hhigh := Nat.lt_trichotomy i 2
  · simpa [hlow] using congrArg (·.getLsbD i) hop
  · exact hm
  · have hbit := congrArg (·.getLsbD (i - 3)) hrsv
    simpa [show i - 3 < 5 by omega, show 3 + (i - 3) = i by omega] using hbit

theorem decode_encode (i : Instr) : decode (encode i) = .ok i := by cases i <;> rfl

/-- A word that decodes to a command agrees with the command's own word in all three fields. -/
theorem decode_eq_ok_iff {c : CommandWord} {i : Instr} : decode c = .ok i ↔ c = encode i := by
  refine ⟨fun h => ?_, fun h => h ▸ decode_encode i⟩
  unfold decode at h
  split_ifs at h with hrsv
  rw [not_not] at hrsv
  split at h <;> cases h
  all_goals
    rename_i hm hop
    exact CommandWord.eq_of_fields hrsv hm (BitVec.eq_of_toNat_eq hop)

theorem encode_wellFormed : (i : Instr) → (encode i).WellFormed
  | .planX16 => Laws.LegalWord.planX16.1
  | .encX16 => Laws.LegalWord.encX16.1
  | .decX16 => Laws.LegalWord.decX16.1
  | .planP12 => Laws.LegalWord.planP12.1
  | .encP12 => Laws.LegalWord.encP12.1
  | .decP12 => Laws.LegalWord.decP12.1

/-- With RSV 00000, each value of M and each OP but 11 has its command. -/
theorem decode_of_wellFormed {c : CommandWord} (h : c.WellFormed) : ∃ i, decode c = .ok i := by
  obtain ⟨hrsv, hop⟩ := h
  have hops : ∀ op : BitVec 2, op ≠ 3#2 → op = 0#2 ∨ op = 1#2 ∨ op = 2#2 := by decide
  rw [decode, if_neg (not_not.2 hrsv)]
  cases c.getLsbD 2 <;> obtain h0 | h1 | h2 := hops _ hop
  · rw [h0]; exact ⟨.planX16, rfl⟩
  · rw [h1]; exact ⟨.encX16, rfl⟩
  · rw [h2]; exact ⟨.decX16, rfl⟩
  · rw [h0]; exact ⟨.planP12, rfl⟩
  · rw [h1]; exact ⟨.encP12, rfl⟩
  · rw [h2]; exact ⟨.decP12, rfl⟩

theorem exists_decode_error_iff {c : CommandWord} : (∃ e, decode c = .error e) ↔ ¬ c.WellFormed := by
  refine ⟨fun ⟨e, he⟩ hwf => ?_, fun hres => ?_⟩
  · obtain ⟨i, hi⟩ := decode_of_wellFormed hwf
    exact nomatch hi.symm.trans he
  · cases hd : decode c with
    | ok i => exact absurd (decode_eq_ok_iff.1 hd ▸ encode_wellFormed i) hres
    | error e => exact ⟨e, rfl⟩

theorem decodeTableWord_toNat (c : CommandWord) : decodeTableWord 8 c.toNat = (decode c).toOption := by
  rw [decodeTableWord, if_pos ⟨rfl, c.isLt⟩, BitVec.ofNat_toNat, BitVec.setWidth_eq]
  cases decode c <;> rfl

/-- From 8 on a word has a bit of RSV set. -/
theorem not_wellFormed_of_eight_le {n : Nat} (h8 : 8 ≤ n) (hn : n < 256) :
    ¬ CommandWord.WellFormed (BitVec.ofNat 8 n) := fun ⟨hrsv, _⟩ => by
  have hzero : n % 256 / 8 % 32 = 0 := by
    simpa [BitVec.extractLsb'_toNat, Nat.shiftRight_eq_div_pow] using congrArg BitVec.toNat hrsv
  omega

/-- The words 3 and 7 and the 248 words from 8 on are reserved. -/
theorem length_reserved_words :
    ((List.range 256).filter fun n => !decide (CommandWord.WellFormed (BitVec.ofNat 8 n))).length = 250 := by
  have hlow : (List.range 8).filter (fun n => !decide (CommandWord.WellFormed (BitVec.ofNat 8 n))) = [3, 7] := by decide
  have hhigh : ∀ n ∈ (List.range 248).map (8 + ·), (!decide (CommandWord.WellFormed (BitVec.ofNat 8 n))) = true := by
    intro n hn
    obtain ⟨k, hk, rfl⟩ := List.mem_map.1 hn
    rw [List.mem_range] at hk
    rw [decide_eq_false (not_wellFormed_of_eight_le (by omega) (by omega)), Bool.not_false]
  rw [show 256 = 8 + 248 from rfl, List.range_add, List.filter_append, hlow, List.filter_eq_self.2 hhigh,
    List.length_append, List.length_map, List.length_range]
  rfl

/-! ## The claims -/

/-- Settles O1: four words are commands' own, and the fields of the other two are refused. -/
theorem tableWordsDecode : Obligations.TableWordsDecode :=
  ⟨decode_encode .planX16, decode_encode .encX16, decode_encode .decX16, decode_encode .encP12, rfl, rfl⟩

/-- Settles O2: reserved is RSV not 00000 or OP 11, by negating well-formedness. -/
theorem opcodeMapIsComplete : Obligations.OpcodeMapIsComplete := by
  refine ⟨fun c i => decode_eq_ok_iff, fun c => ?_, length_reserved_words⟩
  rw [exists_decode_error_iff, CommandWord.WellFormed, not_and_or, not_not, or_comm]

/-- Settles O3: the table's window on a word of 8 bits is the decoder. -/
theorem decodingAnEncodedCommandGivesItBack : Obligations.DecodingAnEncodedCommandGivesItBack := by
  intro i _
  exact ⟨decode_encode i, by rw [decodeTableWord_toNat, decode_encode]; rfl⟩

/-- Settles O7: the decoder refuses the word, and the write to CMD raises `IllegalCommand`. -/
theorem reservedWordRaisesIllegalCommand : Obligations.ReservedWordRaisesIllegalCommand := by
  intro c s hres
  obtain ⟨e, he⟩ := exists_decode_error_iff.2 hres
  exact Machine.runCommandWord_of_decode_error he s

end Sys2Proof
end

section
/-! The host's runs of buffer elements (30_encoding.md R95), and the carrier slots of a sample and of a pixel pair
(R89, R92). -/

namespace Sys2Proof.Machine

/-! ## Runs of elements (R95) -/

theorem Memory.read?_writeRun_add {w : Nat} (m : Memory w) (i : Nat) {vs : List (BitVec w)} {k : Nat}
    (hk : k < vs.length) : Memory.read? (Memory.writeRun m i vs) (i + k) = vs[k]? := by
  rw [Memory.read?_writeRun, if_pos (by omega), Nat.add_sub_cancel_left]

theorem Memory.read?_writeRun_outside {w : Nat} (m : Memory w) {i a : Nat} {vs : List (BitVec w)}
    (ha : a < i ∨ i + vs.length ≤ a) : Memory.read? (Memory.writeRun m i vs) a = Memory.read? m a := by
  rw [Memory.read?_writeRun, if_neg (by omega)]

/-- Settles O10: a FILL that fits is a run of writes. -/
theorem fillWritesARunAndNothingElse : Obligations.FillWritesARunAndNothingElse := by
  refine ⟨fun s i vs hfit => ⟨_, if_pos (runFits_eq_true.2 hfit), rfl, fun k hk => ?_, fun a ha => ?_⟩,
    fun s i vs hfit => ⟨_, if_pos (runFits_eq_true.2 hfit), rfl, fun k hk => ?_, fun a ha => ?_⟩⟩
  · exact Memory.read?_writeRun_add s.pixIn _ hk
  · exact Memory.read?_writeRun_outside s.pixIn ha
  · exact Memory.read?_writeRun_add s.smpIn _ hk
  · exact Memory.read?_writeRun_outside s.smpIn ha

/-- Settles O11: the reply of a DUMP that fits lists the reads at the indices of the run. -/
theorem dumpGivesTheElementsInOrder : Obligations.DumpGivesTheElementsInOrder := by
  refine ⟨fun s i count hfit => ⟨_, if_pos (runFits_eq_true.2 hfit), ?_, fun k hk => ?_⟩,
    fun s i count hfit => ⟨_, if_pos (runFits_eq_true.2 hfit), ?_, fun k hk => ?_⟩⟩
  · rw [List.length_map, List.length_range]
  · rw [List.getElem?_map, List.getElem?_range hk, Option.map_some]
  · rw [List.length_map, List.length_range]
  · rw [List.getElem?_map, List.getElem?_range hk, Option.map_some]

/-- Settles O12: COPY is a run of writes from index 0, of the values that PIX_OUT reads as. -/
theorem copyMovesTheOutputIntoTheInput : Obligations.CopyMovesTheOutputIntoTheInput := by
  intro s count hfit
  have hlen : ((List.range count).map (readPixOut s)).length = count := by rw [List.length_map, List.length_range]
  refine ⟨_, if_pos (runFits_eq_true.2 (by rwa [Nat.zero_add])), rfl, fun a ha => ?_, fun a ha => ?_⟩
  · have hread := Memory.read?_writeRun_add s.pixIn 0 (hlen.symm ▸ ha)
    rwa [Nat.zero_add, List.getElem?_map, List.getElem?_range ha] at hread
  · exact Memory.read?_writeRun_outside s.pixIn (.inr (by rwa [hlen, Nat.zero_add]))

/-! ## Slots (R89, R92) -/

/-- Settles O42: the two shifts are one, by `PRE + 2k`, whose low digit is the sample's own. -/
theorem loopDigitsAreBitsOfTheSample : Obligations.LoopDigitsAreBitsOfTheSample :=
  fun m p _ hk => lowDigit_running m p hk

/-- Settles O45: the flat index is `6 g + k` with `k` below 6. -/
theorem pixelPairsAreGroupsOfSix : Obligations.PixelPairsAreGroupsOfSix := by
  intro tw row pair k htw _ hk
  refine ⟨by rw [flat_pixelPair htw, Nat.mul_comm 6], ?_, ?_⟩
  · rw [Nat.mul_add_div (by decide), Nat.div_eq_of_lt hk, Nat.add_zero]
  · rw [Nat.mul_add_mod, Nat.mod_eq_of_lt hk]

end Sys2Proof.Machine
end

section
/-! The planner: what trimming and planning give, and that every command on legal operands writes its mode's plan
(40_planner.md R111 to R119). -/

namespace Sys2Proof.Machine

/-! ## Trimming (R111) -/

theorem dvd_trim (n d : Nat) : d ∣ trim n d := Nat.dvd_sub_mod n

theorem trim_eq_mul (n d : Nat) : trim n d = d * (n / d) := by
  rw [trim, ← Nat.mul_div_self_eq_mod_sub_self]

theorem le_trim {n d k : Nat} (hk : d ∣ k) (hkn : k ≤ n) : k ≤ trim n d := by
  rw [trim_eq_mul, ← Nat.mul_div_cancel' hk]
  exact Nat.mul_le_mul_left d (Nat.div_le_div_right hkn)

theorem trim_of_dvd {n d : Nat} (h : d ∣ n) : trim n d = n := by
  rw [trim, Nat.mod_eq_zero_of_dvd h, Nat.sub_zero]

@[simp] theorem trim_trim (n d : Nat) : trim (trim n d) d = trim n d := trim_of_dvd (dvd_trim n d)

theorem trim_eq_zero_iff {n d : Nat} (hd : 1 ≤ d) : trim n d = 0 ↔ n < d := by
  rw [trim_eq_mul, Nat.mul_eq_zero, Nat.div_eq_zero_iff]
  omega

/-- Settles O22: trimming gives a multiple not above its argument, and every such multiple is not above it. -/
theorem trimGivesTheLargestMultiple : Obligations.TrimGivesTheLargestMultiple :=
  fun n d hd => ⟨rfl, dvd_trim n d, trim_le n d, fun _ => le_trim, trim_one n, trim_eq_zero_iff hd, trim_trim n d⟩

/-! ## Planning a plan's own dimensions (R116) -/

theorem plan_of_trimmed (m : Mode) (h w : Nat) : plan m (plan m h w).th (plan m h w).tw = plan m h w := by
  cases m with
  | exact16 => simp [plan, planExact16]
  | packed12 => simp [plan, planPacked12]

theorem plan_packed12_th (h w : Nat) : (plan .packed12 h w).th = h := rfl

/-- A width of EXACT16 is even, so PACKED12 keeps it. -/
theorem plan_packed12_tw_of_exact16 (h w h' : Nat) :
    (plan .packed12 h' (plan .exact16 h w).tw).tw = (plan .exact16 h w).tw := by
  have heven : 2 ∣ (plan .exact16 h w).tw := (show 2 ∣ 4 by decide).trans (dvd_trim w 4)
  rw [plan_tw .packed12]
  exact trim_of_dvd heven

/-- The same nonempty region holds more groups of 6 slots than groups of 8. -/
theorem plan_cap_ne_of_same_region {h w h' w' : Nat} (hth : (plan .packed12 h' w').th = (plan .exact16 h w).th)
    (htw : (plan .packed12 h' w').tw = (plan .exact16 h w).tw) (hth0 : 0 < (plan .exact16 h w).th)
    (htw0 : 0 < (plan .exact16 h w).tw) : (plan .packed12 h' w').cap ≠ (plan .exact16 h w).cap := by
  have h8 : (plan .exact16 h w).cap * 8 = (plan .exact16 h w).nslots := plan_cap_mul_slotsOf .exact16 h w
  have h6 : (plan .packed12 h' w').cap * 6 = (plan .packed12 h' w').nslots := plan_cap_mul_slotsOf .packed12 h' w'
  have hpos : 0 < (plan .exact16 h w).th * (plan .exact16 h w).tw := Nat.mul_pos hth0 htw0
  rw [plan_nslots] at h8
  rw [plan_nslots, hth, htw] at h6
  omega

/-- Settles O25: trimming is idempotent; across modes the region is kept one way only, and the capacity never. PACKED12
keeps a carrier of 2 × 6, which EXACT16 trims to 2 × 4. -/
theorem planningATrimmedCarrierChangesNothing : Obligations.PlanningATrimmedCarrierChangesNothing := by
  refine ⟨fun m h w _ _ => plan_of_trimmed m h w, fun h w hth htw => ?_, 2, 6, by decide⟩
  have hsame_th := plan_packed12_th (plan .exact16 h w).th (plan .exact16 h w).tw
  have hsame_tw := plan_packed12_tw_of_exact16 h w (plan .exact16 h w).th
  exact ⟨hsame_th, hsame_tw, plan_cap_ne_of_same_region hsame_th hsame_tw hth htw⟩

/-! ## PLAN (R112, R113) -/

theorem exec_planInstr_of_ready {m : Mode} {s : State} (h : PlanReady s) :
    exec (planInstr m) s = .next (complete (writePlan (planOf m s) s)) :=
  (exec_planInstr m s).trans (planCommand_of_ready h)

/-- Settles O19: the results are the plan of EXACT16 written, which fits, and nothing else changes. -/
theorem planX16WritesThePlan : Obligations.PlanX16WritesThePlan := by
  intro s h
  obtain ⟨hth, htw, hcap, hn⟩ := writePlan_toNat .exact16 s s
  exact ⟨_, exec_planInstr_of_ready (m := .exact16) h, hth, htw, hcap, hn, rfl⟩

/-- Settles O20, as O19 with the plan of PACKED12. -/
theorem planP12WritesThePlan : Obligations.PlanP12WritesThePlan := by
  intro s h
  obtain ⟨hth, htw, hcap, hn⟩ := writePlan_toNat .packed12 s s
  exact ⟨_, exec_planInstr_of_ready (m := .packed12) h, hth, htw, hcap, hn, rfl⟩

/-! ## Every command writes its mode's plan (R96, R117) -/

/-- The four result registers read as the plan's numbers. -/
structure HoldsPlan (p : Plan) (t : State) : Prop where
  theight : t.theight.toNat = p.th
  twidth : t.twidth.toNat = p.tw
  capacity : t.capacity.toNat = p.cap
  nslots : t.nslots.toNat = p.nslots

/-- The write of a mode's plan is what PLAN, ENC and DEC have in common; they differ in the output buffers. -/
theorem holdsPlan_complete_writePlan (m : Mode) (s : State) (po : Memory 8) (so : Memory 16) :
    HoldsPlan (planOf m s) (complete { writePlan (planOf m s) s with pixOut := po, smpOut := so }) :=
  have ⟨hth, htw, hcap, hn⟩ := writePlan_toNat m s s
  ⟨hth, htw, hcap, hn⟩

theorem holdsPlan_planned (m : Mode) (s : State) : HoldsPlan (planOf m s) (complete (writePlan (planOf m s) s)) :=
  holdsPlan_complete_writePlan ..

theorem holdsPlan_encoded (m : Mode) (s : State) : HoldsPlan (planOf m s) (encoded m s) :=
  holdsPlan_complete_writePlan ..

theorem holdsPlan_decoded (m : Mode) (s : State) : HoldsPlan (planOf m s) (decoded m s) :=
  holdsPlan_complete_writePlan ..

/-- The plan determines the four registers. -/
theorem HoldsPlan.results_eq {p : Plan} {t u : State} (ht : HoldsPlan p t) (hu : HoldsPlan p u) :
    u.theight = t.theight ∧ u.twidth = t.twidth ∧ u.capacity = t.capacity ∧ u.nslots = t.nslots :=
  ⟨BitVec.eq_of_toNat_eq (hu.theight.trans ht.theight.symm), BitVec.eq_of_toNat_eq (hu.twidth.trans ht.twidth.symm),
    BitVec.eq_of_toNat_eq (hu.capacity.trans ht.capacity.symm), BitVec.eq_of_toNat_eq (hu.nslots.trans ht.nslots.symm)⟩

@[simp] theorem modeOf_planInstr (m : Mode) : modeOf (planInstr m) = m := by cases m <;> rfl

@[simp] theorem modeOf_encInstr (m : Mode) : modeOf (encInstr m) = m := by cases m <;> rfl

@[simp] theorem modeOf_decInstr (m : Mode) : modeOf (decInstr m) = m := by cases m <;> rfl

@[simp] theorem ready_planInstr {m : Mode} {s : State} : Ready (planInstr m) s ↔ PlanReady s := by cases m <;> rfl

@[simp] theorem ready_encInstr {m : Mode} {s : State} : Ready (encInstr m) s ↔ EncReady s := by cases m <;> rfl

@[simp] theorem ready_decInstr {m : Mode} {s : State} : Ready (decInstr m) s ↔ DecReady s := by cases m <;> rfl

/-- Every command on legal operands succeeds and writes the plan of its mode. -/
theorem exec_holdsPlan {i : Instr} {s : State} (h : Ready i s) :
    ∃ t, exec i s = .next t ∧ HoldsPlan (planOf (modeOf i) s) t := by
  obtain ⟨m, rfl | rfl | rfl⟩ := instr_cases i
  · rw [modeOf_planInstr]
    exact ⟨_, exec_planInstr_of_ready (ready_planInstr.1 h), holdsPlan_planned m s⟩
  · rw [modeOf_encInstr]
    exact ⟨_, exec_encInstr_of_ready (ready_encInstr.1 h), holdsPlan_encoded m s⟩
  · rw [modeOf_decInstr]
    exact ⟨_, exec_decInstr_of_ready (ready_decInstr.1 h), holdsPlan_decoded m s⟩

/-- Settles O23: the registers hold a plan, whose groups tile its region. -/
theorem capacityTilesTheTrimmedCarrier : Obligations.CapacityTilesTheTrimmedCarrier := by
  intro i s h
  obtain ⟨t, hrun, ht⟩ := exec_holdsPlan h
  have hregion : (planOf (modeOf i) s).nslots = (planOf (modeOf i) s).th * (planOf (modeOf i) s).tw * 3 :=
    plan_nslots ..
  refine ⟨t, hrun, ?_, ?_⟩
  · rw [ht.theight, ht.twidth, ht.capacity, ← planOf_nslots_eq, hregion]
  · rw [ht.theight, ht.twidth, ht.nslots, hregion]

theorem hdivOf_pos (m : Mode) : 0 < hdivOf m := by cases m <;> decide

theorem wdivOf_pos (m : Mode) : 0 < wdivOf m := by cases m <;> decide

/-- Settles O24: the registers hold the trimmed operands. -/
theorem trimmedDimensionsAreBounded : Obligations.TrimmedDimensionsAreBounded := by
  intro i s h
  obtain ⟨t, hrun, ht⟩ := exec_holdsPlan h
  have hth : t.theight.toNat = trim s.height.toNat (hdivOf (modeOf i)) := ht.theight.trans (plan_th ..)
  have htw : t.twidth.toNat = trim s.width.toNat (wdivOf (modeOf i)) := ht.twidth.trans (plan_tw ..)
  refine ⟨t, hrun, ?_⟩
  rw [hth, htw]
  exact ⟨trim_le .., lt_trim_add (hdivOf_pos _), trim_le .., lt_trim_add (wdivOf_pos _), dvd_trim .., dvd_trim ..⟩

/-- Settles O26: all runs hold one plan, that of the common HEIGHT and WIDTH. -/
theorem everyCommandOfAModePlansAlike : Obligations.EveryCommandOfAModePlansAlike := by
  intro m s s' h hh hw
  have hplan : planOf m s' = planOf m s := by rw [planOf, planOf, hh, hw]
  have h' : PlanReady s' := by rwa [PlanReady, hh, hw]
  have hsame {u : State} (hu : HoldsPlan (planOf m s') u) :=
    (holdsPlan_planned m s).results_eq (by rwa [hplan] at hu)
  obtain ⟨hth, htw, hcap, hn⟩ := hsame (holdsPlan_planned m s')
  exact ⟨_, _, exec_planInstr_of_ready h, exec_planInstr_of_ready h', hth, htw, hcap, hn, rfl, rfl, rfl, rfl,
    fun he => ⟨_, exec_encInstr_of_ready he, hsame (holdsPlan_encoded m s')⟩,
    fun hd => ⟨_, exec_decInstr_of_ready hd, hsame (holdsPlan_decoded m s')⟩⟩

end Sys2Proof.Machine
end

section
/-! What ENC writes into a carrier: the byte of R137, how near it stays to the carrier's byte, that a gray carrier
counts as three equal channels, and which samples reach the output (41_codec_encode.md R132, R135, R137, R141, R142). -/

namespace Sys2Proof.Machine

/-! ## A packed byte (R134, R137) -/

/-- A packed byte divides by 4 as the carrier's byte does: bits 7:2 stay. -/
theorem extractLsb'_pack_quantise (b : Byte) (d : Digit) :
    (pack (quantise b) d).extractLsb' 2 6 = b.extractLsb' 2 6 := by
  have hdiv : (pack (quantise b) d).toNat / 4 = b.toNat / 4 := by
    rw [toNat_pack_quantise, toNat_quantise_eq_mul]
    omega
  apply BitVec.eq_of_toNat_eq
  simp only [BitVec.extractLsb'_toNat, Nat.shiftRight_eq_div_pow]
  exact congrArg (· % 2 ^ 6) hdiv

@[simp] theorem payload_pack_quantise (b : Byte) (d : Digit) : payload (pack (quantise b) d) = d := by
  have hmod : (pack (quantise b) d).toNat % 4 = d.toNat := by
    rw [toNat_pack_quantise, toNat_quantise_eq_mul]
    omega
  exact BitVec.eq_of_toNat_eq ((BitVec.toNat_setWidth ..).trans hmod)

/-- Both bytes lie in one block of four values. -/
theorem abs_pack_quantise_sub_lt (b : Byte) (d : Digit) :
    |((pack (quantise b) d).toNat : Int) - (b.toNat : Int)| < 4 := by
  rw [toNat_pack_quantise, toNat_quantise_eq_mul, abs_lt]
  omega

@[simp] theorem pack_zero (q : Byte) : pack q 0 = q := BitVec.add_zero q

/-! ## The encoded bytes (R137, R141) -/

/-- Settles O28: the loops write the closed form, a quantised byte with a digit in its two free bits. -/
theorem encodeWritesTheClosedForm : Obligations.EncodeWritesTheClosedForm := by
  intro m s h
  refine ⟨encoded m s, exec_encInstr_of_ready h, fun f hf => ?_⟩
  have hn : (planOf m s).nslots = (planOf m s).th * (planOf m s).tw * 3 := plan_nslots ..
  exact ⟨read?_encoded_pixOut (hn ▸ hf), (toNat_pack_quantise _ _).symm, extractLsb'_pack_quantise _ _,
    payload_pack_quantise _ _⟩

/-- Settles O31: every byte of the extent is a packed byte. -/
theorem encodedBytesStayWithinThree : Obligations.EncodedBytesStayWithinThree := by
  intro m s h
  exact ⟨encoded m s, exec_encInstr_of_ready h, fun f hf =>
    ⟨encodedByte m s f, read?_encoded_pixOut hf, abs_pack_quantise_sub_lt _ _, extractLsb'_pack_quantise _ _⟩⟩

/-! ## Gray carriers (R132, R142) -/

theorem promoted_of_gray {s : State} (hc : s.channels = 1) (r c ch : Nat) :
    promoted s r c ch = readPixIn s (r * s.width.toNat + c) := by
  rw [promoted, hc]; rfl

theorem promoted_of_colour {s : State} (hc : s.channels = 3) (r c ch : Nat) :
    promoted s r c ch = readPixIn s ((r * s.width.toNat + c) * 3 + ch) := by
  rw [promoted, hc]; rfl

/-- The samples of the groups depend on NSAMPLES and the first NSAMPLES elements of SMP_IN alone (R135). -/
theorem sampleFor_congr {s s' : State} (hn : s'.nsamples = s.nsamples)
    (hsmp : ∀ g < s.nsamples.toNat, readSmpIn s' g = readSmpIn s g) (g : Nat) : sampleFor s' g = sampleFor s g := by
  rw [sampleFor, sampleFor, hn]
  split_ifs with hg
  · exact hsmp g hg
  · rfl

/-- The colour carrier `s'` has in all three channels what the gray carrier `s` has in its one (R142). -/
structure EqualChannels (s s' : State) : Prop where
  height : s'.height = s.height
  width : s'.width = s.width
  gray : s.channels = 1
  colour : s'.channels = 3
  pixIn : ∀ r < s.height.toNat, ∀ c < s.width.toNat, ∀ ch < 3,
    readPixIn s' ((r * s.width.toNat + c) * 3 + ch) = readPixIn s (r * s.width.toNat + c)

theorem EqualChannels.planOf_eq {s s' : State} (h : EqualChannels s s') (m : Mode) : planOf m s' = planOf m s := by
  rw [planOf, planOf, h.height, h.width]

/-- Both promote to the same working buffer. -/
theorem EqualChannels.trimmedByte_eq {s s' : State} (h : EqualChannels s s') {m : Mode} {f : Nat}
    (hf : f < (planOf m s).nslots) : trimmedByte m s' f = trimmedByte m s f := by
  obtain ⟨hrow, hcol⟩ := rowOf_colOf_lt hf
  rw [trimmedByte, trimmedByte, promoted_of_gray h.gray, promoted_of_colour h.colour, h.planOf_eq, h.width]
  exact h.pixIn _ hrow _ hcol _ (Nat.mod_lt f three_pos)

/-- Settles O32: both carriers have one plan, and each byte of the extent has the same carrier byte and sample. -/
theorem grayscaleEncodesLikeEqualChannels : Obligations.GrayscaleEncodesLikeEqualChannels := by
  intro m s s' hp hh hw hn hgray hcolour hsmp hpix
  have h : EqualChannels s s' := ⟨hh, hw, hgray, hcolour, hpix⟩
  have hp' : PlanReady s' := by rwa [PlanReady, hh, hw]
  have hplan := h.planOf_eq m
  obtain ⟨hth, htw, hcap, hns⟩ := (holdsPlan_encoded m s).results_eq (hplan ▸ holdsPlan_encoded m s')
  refine ⟨encoded m s, encoded m s', exec_encInstr_of_ready ⟨.inl hgray, hp⟩,
    exec_encInstr_of_ready ⟨.inr hcolour, hp'⟩, hth, htw, hcap, hns, fun f hf => ?_⟩
  rw [encoded_nslots_toNat] at hf
  rw [read?_encoded_pixOut hf, read?_encoded_pixOut (hplan ▸ hf), encodedByte, encodedByte, h.trimmedByte_eq hf,
    sampleFor_congr hn hsmp]

/-! ## Samples past the capacity and groups past NSAMPLES (R135) -/

/-- The group of a pixel pair of PACKED12 is below the capacity (R92). -/
theorem pixelPair_lt_cap {s : State} {row pair : Nat} (hrow : row < (planOf .packed12 s).th)
    (hpair : pair < (planOf .packed12 s).tw / 2) :
    row * ((planOf .packed12 s).tw / 2) + pair < (planOf .packed12 s).cap := by
  have hrows : (row + 1) * ((planOf .packed12 s).tw / 2) ≤ (planOf .packed12 s).th * ((planOf .packed12 s).tw / 2) :=
    Nat.mul_le_mul_right _ hrow
  rw [planOf_packed12_cap]
  linarith

/-- The loops read the samples of the groups below the capacity and no others. -/
theorem encWrites_of_sampleFor_eq {m : Mode} {s : State} {n : BitVec Config.lenBits} {mem : Memory 16}
    (h : ∀ g < (planOf m s).cap, sampleFor { s with nsamples := n, smpIn := mem } g = sampleFor s g) :
    encWrites m { s with nsamples := n, smpIn := mem } = encWrites m s := by
  cases m with
  | exact16 => exact List.flatMap_congr fun g hg => congrArg (packLoop _ 0 _) (h g (List.mem_range.1 hg))
  | packed12 =>
    exact List.flatMap_congr fun row hrow => List.flatMap_congr fun pair hpair =>
      congrArg (fun v => packLoop _ 0 _ (asr16 v _))
        (h _ (pixelPair_lt_cap (List.mem_range.1 hrow) (List.mem_range.1 hpair)))

theorem encoded_of_sampleFor_eq {m : Mode} {s : State} {n : BitVec Config.lenBits} {mem : Memory 16}
    (h : ∀ g < (planOf m s).cap, sampleFor { s with nsamples := n, smpIn := mem } g = sampleFor s g) :
    encoded m { s with nsamples := n, smpIn := mem } = { encoded m s with nsamples := n, smpIn := mem } := by
  rw [encoded, encWrites_of_sampleFor_eq h]; rfl

@[simp] theorem sampleDigit_zero (m : Mode) (k : Nat) : sampleDigit m 0 k = 0 := BitVec.extractLsb'_zero

theorem sampleFor_of_le {s : State} {g : Nat} (h : s.nsamples.toNat ≤ g) : sampleFor s g = 0 := if_neg h.not_gt

theorem encodedByte_of_padded {m : Mode} {s : State} {f : Nat} (h : s.nsamples.toNat ≤ f / slotsOf m) :
    encodedByte m s f = quantise (trimmedByte m s f) := by
  rw [encodedByte, sampleFor_of_le h, sampleDigit_zero, pack_zero]

/-- Settles O33: the writes are the same, and the digits of a padded group are 0. -/
theorem samplesAreTruncatedAndPadded : Obligations.SamplesAreTruncatedAndPadded := by
  refine ⟨fun m s n mem hr h => ⟨encoded m s, exec_encInstr_of_ready hr, ?_⟩,
    fun m s hr => ⟨encoded m s, exec_encInstr_of_ready hr, fun f hf hpad => ?_⟩⟩
  · rw [← encoded_of_sampleFor_eq h]
    exact exec_encInstr_of_ready hr
  · rw [read?_encoded_pixOut hf, encodedByte_of_padded hpad]

end Sys2Proof.Machine
end

section
/-! What DEC makes of a carrier: the carriers it rejects (R161, R182), the value of a group's digits and the digits of
a decoded sample (42_codec_decode.md R163 to R168, R173), and the round trip through ENC (R169 to R171). -/

namespace Sys2Proof.Machine

/-! ## Malformed carriers (R161, R182) -/

theorem raise_errcode_ne_two {e : CommandError} (he : e ≠ .malformedCarrier) (s : State) :
    (raise e s).errcode ≠ 2#8 := by
  rw [raise_errcode]
  cases e with
  | malformedCarrier => exact absurd rfl he
  | unsupportedCarrierShape | illegalCommand | preconditionViolated => decide

theorem complete_errcode_ne_two (s : State) : (complete s).errcode ≠ 2#8 := by
  rw [complete_errcode]; decide

theorem exec_planInstr_errcode_ne_two {m : Mode} {s t : State} (h : exec (planInstr m) s = .next t) :
    t.errcode ≠ 2#8 := by
  rw [exec_planInstr] at h
  rcases planCommand_cases m s with ⟨_, h'⟩ | ⟨_, h'⟩ <;> cases h.symm.trans h'
  · exact raise_errcode_ne_two (by decide) s
  · exact complete_errcode_ne_two _

theorem exec_encInstr_errcode_ne_two {m : Mode} {s t : State} (h : exec (encInstr m) s = .next t) :
    t.errcode ≠ 2#8 := by
  rcases exec_encInstr_cases m s with ⟨_, h'⟩ | ⟨_, _, h'⟩ | ⟨_, h'⟩ <;> cases h.symm.trans h'
  · exact raise_errcode_ne_two (by decide) s
  · exact raise_errcode_ne_two (by decide) s
  · exact complete_errcode_ne_two _

/-- Settles O37: the operands are legal or DEC raises its error, which the answers of PLAN and ENC do not include. -/
theorem decodeRejectsMalformedCarriers : Obligations.DecodeRejectsMalformedCarriers := by
  refine ⟨fun m s h => exec_decInstr_of_not_ready fun ⟨hc, hh, hw⟩ => ?_,
    fun m s h => ⟨_, exec_decInstr_of_ready h, rfl⟩, fun m s t h => ?_⟩
  · exact h.elim (fun h => h hc) fun h => h.elim hh hw
  · exact h.elim exec_planInstr_errcode_ne_two exec_encInstr_errcode_ne_two

/-! ## The value of digits (R165) -/

/-- The number whose `n` digits in base 4 are `d`, the lowest first. -/
def digitsValue (d : Nat → Digit) (n : Nat) : Nat := ∑ k ∈ Finset.range n, (d k).toNat * 4 ^ k

theorem groupValue_eq_digitsValue (m : Mode) (s : State) (g : Nat) :
    groupValue m s g = digitsValue (slotDigit m s g) (slotsOf m) := rfl

@[simp] theorem digitsValue_zero (d : Nat → Digit) : digitsValue d 0 = 0 := rfl

/-- The lowest digit split off. -/
theorem digitsValue_succ (d : Nat → Digit) (n : Nat) :
    digitsValue d (n + 1) = 4 * digitsValue (fun k => d (k + 1)) n + (d 0).toNat := by
  rw [digitsValue, Finset.sum_range_succ', digitsValue, Finset.mul_sum, pow_zero, mul_one]
  congr 1
  exact Finset.sum_congr rfl fun k _ => by ring

theorem digitsValue_lt (d : Nat → Digit) (n : Nat) : digitsValue d n < 4 ^ n := by
  induction n generalizing d with
  | zero => simp
  | succ n ih =>
    have hlow : (d 0).toNat < 4 := (d 0).isLt
    have hhigh := ih fun k => d (k + 1)
    rw [digitsValue_succ, pow_succ]
    omega

theorem digitsValue_div_mod (d : Nat → Digit) {n k : Nat} (hk : k < n) :
    digitsValue d n / 4 ^ k % 4 = (d k).toNat := by
  induction n generalizing d k with
  | zero => omega
  | succ n ih =>
    have hlow : (d 0).toNat < 4 := (d 0).isLt
    rw [digitsValue_succ]
    cases k with
    | zero => rw [pow_zero]; omega
    | succ k =>
      rw [pow_succ', ← Nat.div_div_eq_div_mul, Nat.mul_add_div four_pos, Nat.div_eq_of_lt hlow, Nat.add_zero]
      exact ih (fun k => d (k + 1)) (by omega)

/-- The digits of `x` make up its remainder. -/
theorem digitsValue_of_div_mod {d : Nat → Digit} {x n : Nat} (h : ∀ k < n, (d k).toNat = x / 4 ^ k % 4) :
    digitsValue d n = x % 4 ^ n := by
  induction n with
  | zero => simp [Nat.mod_one]
  | succ n ih =>
    have hrest : digitsValue d n = x % 4 ^ n := ih fun k hk => h k (by omega)
    rw [Nat.mod_pow_succ, ← hrest, ← h n n.lt_succ_self, digitsValue, Finset.sum_range_succ, Nat.mul_comm (4 ^ n)]
    rfl

/-! ## The accumulators (R164, R168, C1) -/

theorem toNat_shl16_ofNat {n k : Nat} (h : n * 2 ^ k < 2 ^ 16) : (shl16 (BitVec.ofNat 16 n) k).toNat = n * 2 ^ k := by
  rw [shl16_eq_mul, ← BitVec.ofNat_mul, BitVec.toNat_ofNat, Nat.mod_eq_of_lt h]

theorem accShiftAdd_zero_eq (d : Nat → Digit) (n : Nat) : accShiftAdd d n 0 = BitVec.ofNat 16 (digitsValue d n) := by
  rw [accShiftAdd_eq, zero_mul, zero_add, ← BitVec.natCast_eq_ofNat, digitsValue]

/-- The two places that PACKED12 shifts after the last digit come on top of the two it shifts with it. -/
theorem shl16_accAddShift_zero_eq (d : Nat → Digit) (n : Nat) :
    shl16 (accAddShift d n 0) 2 = shl16 (BitVec.ofNat 16 (digitsValue d n)) 4 := by
  have h4 (x : Sample) : shl16 x 2 = x * 4 := shl16_eq_mul x 2
  have h16 (x : Sample) : shl16 x 4 = x * 16 := shl16_eq_mul x 4
  rw [accAddShift_eq, h4, h16, ← BitVec.natCast_eq_ofNat, digitsValue]
  ring

/-- Settles O44: eight digits fill the accumulator's 16 bits, and six leave room for the shift by 4. -/
theorem accumulatorsGiveTheReassembledValue : Obligations.AccumulatorsGiveTheReassembledValue := by
  intro d
  constructor
  · have h8 : digitsValue d 8 < 2 ^ 16 := digitsValue_lt d 8
    rw [accShiftAdd_zero_eq, BitVec.toNat_ofNat, Nat.mod_eq_of_lt h8, digitsValue]
  · have h6 : digitsValue d 6 < 2 ^ 12 := digitsValue_lt d 6
    rw [shl16_accAddShift_zero_eq, toNat_shl16_ofNat (by omega), Nat.mul_comm]
    rfl

/-! ## The decoded sample (R166, R173) -/

/-- The digits and the places below them fill a sample. -/
theorem four_pow_slotsOf_mul (m : Mode) : 4 ^ slotsOf m * 2 ^ postOf m = 2 ^ 16 := by cases m <;> rfl

theorem groupValue_lt (m : Mode) (s : State) (g : Nat) : groupValue m s g < 4 ^ slotsOf m := digitsValue_lt _ _

theorem toNat_decodedSample (m : Mode) (s : State) (g : Nat) :
    (decodedSample m s g).toNat = groupValue m s g * 2 ^ postOf m := by
  refine toNat_shl16_ofNat ?_
  rw [← four_pow_slotsOf_mul m]
  exact Nat.mul_lt_mul_of_pos_right (groupValue_lt m s g) (Nat.two_pow_pos _)

/-- Settles O35: the loops write the closed form, whose digits and POST fill 16 bits. -/
theorem decodeWritesTheClosedForm : Obligations.DecodeWritesTheClosedForm :=
  fun m s h => ⟨decoded m s, exec_decInstr_of_ready h, fun g hg =>
    ⟨read?_decoded_smpOut hg, toNat_decodedSample m s g, groupValue_lt m s g⟩⟩

/-- Digit `k` of a decoded sample is the payload of slot `k`. -/
theorem extractLsb'_decodedSample (m : Mode) (s : State) (g : Nat) {k : Nat} (hk : k < slotsOf m) :
    (decodedSample m s g).extractLsb' (postOf m + 2 * k) 2 = slotDigit m s g k := by
  apply BitVec.eq_of_toNat_eq
  rw [BitVec.extractLsb'_toNat, toNat_decodedSample, Nat.shiftRight_eq_div_pow, pow_add, pow_mul,
    ← Nat.div_div_eq_div_mul, Nat.mul_div_cancel _ (Nat.two_pow_pos _)]
  exact digitsValue_div_mod _ hk

/-- A decoded sample depends on the payloads of its own group's slots alone. -/
theorem decodedSample_congr_payload {m : Mode} {s s' : State} {g : Nat}
    (h : ∀ k < slotsOf m, slotDigit m s' g k = slotDigit m s g k) : decodedSample m s' g = decodedSample m s g := by
  have hvalue : groupValue m s' g = groupValue m s g :=
    Finset.sum_congr rfl fun k hk => by rw [h k (Finset.mem_range.1 hk)]
  rw [decodedSample, decodedSample, hvalue]

/-- Settles O38: a decoded sample is made of its slots' payloads, and gives each of them back as a digit. -/
theorem decodeIgnoresImageBits : Obligations.DecodeIgnoresImageBits := by
  intro m s s' h hh hw hc
  have h' : DecReady s' := ⟨hc, by rw [PlanReady, hh, hw]; exact h.2⟩
  have hplan : planOf m s' = planOf m s := by rw [planOf, planOf, hh, hw]
  refine ⟨decoded m s, decoded m s', exec_decInstr_of_ready h, exec_decInstr_of_ready h', fun hpay g hg => ?_,
    fun g hg => ⟨_, _, read?_decoded_smpOut hg, read?_decoded_smpOut (hplan ▸ hg), fun k hk => ?_⟩⟩
  · rw [read?_decoded_smpOut hg, read?_decoded_smpOut (hplan ▸ hg)]
    exact congrArg some (decodedSample_congr_payload fun k hk => hpay _ (group_slot_lt_nslots hg hk))
  · rw [extractLsb'_decodedSample m s g hk, extractLsb'_decodedSample m s' g hk]
    exact Iff.rfl

/-! ## The round trip (R169 to R171) -/

theorem toNat_sampleDigit (m : Mode) (p : Sample) (k : Nat) :
    (sampleDigit m p k).toNat = p.toNat / 2 ^ preOf m / 4 ^ k % 4 := by
  rw [sampleDigit, BitVec.extractLsb'_toNat, Nat.shiftRight_eq_div_pow, pow_add, pow_mul, ← Nat.div_div_eq_div_mul]
  rfl

/-- PRE drops as many bits as POST puts back, so the digits hold all the others. -/
theorem digitsValue_sampleDigit (m : Mode) (p : Sample) :
    digitsValue (sampleDigit m p) (slotsOf m) = p.toNat / 2 ^ preOf m := by
  have hlt : p.toNat / 2 ^ preOf m < 4 ^ slotsOf m := by
    refine Nat.div_lt_of_lt_mul ?_
    have hpre : 2 ^ preOf m * 4 ^ slotsOf m = 2 ^ 16 := by cases m <;> rfl
    exact hpre ▸ p.isLt
  rw [digitsValue_of_div_mod fun k _ => toNat_sampleDigit m p k, Nat.mod_eq_of_lt hlt]

/-- `s2` presents a 3-channel carrier with the dimensions and the payloads that ENC on `s` leaves (U8). -/
structure PresentsEncoded (m : Mode) (s s2 : State) : Prop where
  height : s2.height = (encoded m s).theight
  width : s2.width = (encoded m s).twidth
  channels : s2.channels = 3
  payloads : ∀ f < (planOf m s).nslots, payload (readPixIn s2 f) = payload (encodedByte m s f)

section
variable {m : Mode} {s s2 : State} (h : PresentsEncoded m s s2)
include h

theorem PresentsEncoded.planOf_eq : planOf m s2 = planOf m s := by
  have hp := holdsPlan_encoded m s
  rw [planOf, h.height, h.width, hp.theight, hp.twidth]
  exact plan_of_trimmed m _ _

/-- A carrier of trimmed width is addressed by its flat index. -/
theorem PresentsEncoded.carrierByte_eq (f : Nat) : carrierByte m s2 f = readPixIn s2 f := by
  have hw : s2.width.toNat = (planOf m s2).tw := by
    rw [h.planOf_eq, h.width, (holdsPlan_encoded m s).twidth]
  rw [carrierByte, colourByte, hw]
  exact congrArg (readPixIn s2) (flat_rowOf_colOf_chanOf _ f)

/-- Each slot carries back the digit that ENC put in it. -/
theorem PresentsEncoded.slotDigit_eq {g k : Nat} (hg : g < (planOf m s).cap) (hk : k < slotsOf m) :
    slotDigit m s2 g k = sampleDigit m (sampleFor s g) k := by
  rw [slotDigit, h.carrierByte_eq, h.payloads _ (group_slot_lt_nslots hg hk), Nat.mul_comm,
    encodedByte_group_slot m s g hk, payload_pack_quantise, lowDigit_running m _ hk]

theorem PresentsEncoded.toNat_decodedSample {g : Nat} (hg : g < (planOf m s).cap) :
    (decodedSample m s2 g).toNat = (sampleFor s g).toNat / 2 ^ preOf m * 2 ^ postOf m := by
  have hvalue : groupValue m s2 g = digitsValue (sampleDigit m (sampleFor s g)) (slotsOf m) :=
    Finset.sum_congr rfl fun k hk => by rw [h.slotDigit_eq hg (Finset.mem_range.1 hk)]
  rw [Machine.toNat_decodedSample, hvalue, digitsValue_sampleDigit]

end

theorem readPixOut_encoded {m : Mode} {s : State} {f : Nat} (hf : f < (planOf m s).nslots) :
    readPixOut (encoded m s) f = encodedByte m s f := by rw [readPixOut, read?_encoded_pixOut hf]; rfl

/-- The round trip of either mode: DEC gives as many samples as ENC took, each shifted right by PRE and left by POST. -/
theorem decode_encode_sample {m : Mode} {s s1 s2 : State} (hs : EncReady s) (henc : exec (encInstr m) s = .next s1)
    (hth : s1.theight ≠ 0) (htw : s1.twidth ≠ 0) (hh : s2.height = s1.theight) (hw : s2.width = s1.twidth)
    (hc : s2.channels = 3) (hpay : ∀ f < s1.nslots.toNat, payload (readPixIn s2 f) = payload (readPixOut s1 f)) :
    ∃ t, exec (decInstr m) s2 = .next t ∧ t.capacity = s1.capacity ∧
      ∀ g < t.capacity.toNat, ∃ p, Memory.read? t.smpOut g = some p ∧
        p.toNat = (sampleFor s g).toNat / 2 ^ preOf m * 2 ^ postOf m := by
  cases henc.symm.trans (exec_encInstr_of_ready hs)
  have hp : PresentsEncoded m s s2 := ⟨hh, hw, hc, fun f hf => by
    rw [hpay f (encoded_nslots_toNat m s ▸ hf), readPixOut_encoded hf]⟩
  have hready : DecReady s2 := ⟨hc, hh ▸ hth, hw ▸ htw⟩
  obtain ⟨-, -, hcap, -⟩ := (holdsPlan_encoded m s).results_eq (hp.planOf_eq ▸ holdsPlan_decoded m s2)
  refine ⟨decoded m s2, exec_decInstr_of_ready hready, hcap, fun g hg => ?_⟩
  rw [decoded_capacity_toNat] at hg
  exact ⟨_, read?_decoded_smpOut hg, hp.toNat_decodedSample (hp.planOf_eq ▸ hg)⟩

/-- Settles O39: EXACT16 shifts by nothing. -/
theorem exactRoundTripIsLossless : Obligations.ExactRoundTripIsLossless := by
  intro s s1 s2 hs henc hth htw hh hw hc hpay
  obtain ⟨t, hdec, hcap, hsmp⟩ := decode_encode_sample (m := .exact16) hs henc hth htw hh hw hc hpay
  refine ⟨t, hdec, hcap, fun g hg => ?_⟩
  obtain ⟨p, hread, hp⟩ := hsmp g hg
  have hsame : p = sampleFor s g := BitVec.eq_of_toNat_eq (by simpa [preOf, postOf] using hp)
  rw [hread, hsame]

/-- Clearing the low four bits of a pattern rounds its signed value down to a multiple of 16. -/
theorem s16_of_low_bits_cleared {p q : Sample} (h : p.toNat = q.toNat / 16 * 16) : s16 p = s16 q - s16 q % 16 := by
  have hq := q.isLt
  rw [s16, s16, BitVec.toInt_eq_toNat_cond, BitVec.toInt_eq_toNat_cond]
  split_ifs <;> omega

/-- Settles O40: PACKED12 shifts right by 4 and back, and R9's floor division by 16 forgets what that drops. -/
theorem packedRoundTripClearsTheLowBits : Obligations.PackedRoundTripClearsTheLowBits := by
  intro s s1 s2 hs henc hth htw hh hw hc hpay
  obtain ⟨t, hdec, hcap, hsmp⟩ := decode_encode_sample (m := .packed12) hs henc hth htw hh hw hc hpay
  refine ⟨t, hdec, hcap, fun g hg => ?_⟩
  obtain ⟨p, hread, hp⟩ := hsmp g hg
  have hs16 : s16 p = s16 (sampleFor s g) - s16 (sampleFor s g) % 16 := s16_of_low_bits_cleared hp
  have hasr : s16 (asr16 p 4) = s16 (asr16 (sampleFor s g) 4) := by
    rw [s16_asr16, s16_asr16, hs16]
    omega
  exact ⟨p, hread, hs16, BitVec.eq_of_toInt_eq hasr, by omega, by omega⟩

end Sys2Proof.Machine
end

section
/-! How a command ends (60_exceptions.md): the frame of an error (R186, R187), the errors of PLAN, ENC and DEC (R181,
R184), and success at capacity 0 (R200, 40_planner.md R115). -/

namespace Sys2Proof.Machine

/-! ## The frame of an error (R186) -/

/-- Settles O15: a success clears ERR, so what set it is `raise`, which writes only STATUS and ERRCODE. -/
theorem errorChangesOnlyStatusAndErrcode : Obligations.ErrorChangesOnlyStatusAndErrcode := by
  intro c s t h herr
  rcases runCommandWord_outcome c s with ⟨e, h'⟩ | ⟨m, _, h'⟩ | ⟨m, _, h'⟩ | ⟨m, _, h'⟩ <;> cases h.symm.trans h'
  · exact ⟨e, rfl⟩
  · exact absurd herr (ne_true_of_eq_false (complete_err _))
  · exact absurd herr (ne_true_of_eq_false (complete_err _))
  · exact absurd herr (ne_true_of_eq_false (complete_err _))

/-- Settles O21: on a zero dimension both commands end in `raise`. -/
theorem zeroDimensionWritesNoResult : Obligations.ZeroDimensionWritesNoResult := fun m s h =>
  ⟨⟨_, (exec_planInstr m s).trans (planCommand_of_not_ready h), rfl⟩,
    fun hc => ⟨_, exec_encInstr_of_zero hc h, rfl⟩⟩

/-! ## Which command leaves which error code (R181) -/

theorem errorCode_injective : Function.Injective errorCode := by
  intro a b
  cases a <;> cases b <;> decide

theorem raise_errcode_ne {e e' : CommandError} (h : e ≠ e') (s : State) : (raise e s).errcode ≠ errorCode e' :=
  errorCode_injective.ne h

theorem complete_errcode_ne (e : CommandError) (s : State) : (complete s).errcode ≠ errorCode e :=
  (errorCode_range e).1.symm

theorem exec_planInstr_errcode_ne {m : Mode} {s t : State} {e : CommandError} (he : e ≠ .preconditionViolated)
    (h : exec (planInstr m) s = .next t) : t.errcode ≠ errorCode e := by
  rw [exec_planInstr] at h
  rcases planCommand_cases m s with ⟨_, h'⟩ | ⟨_, h'⟩ <;> cases h.symm.trans h'
  · exact raise_errcode_ne he.symm s
  · exact complete_errcode_ne e _

theorem exec_decInstr_errcode_ne {m : Mode} {s t : State} {e : CommandError} (he : e ≠ .malformedCarrier)
    (h : exec (decInstr m) s = .next t) : t.errcode ≠ errorCode e := by
  rcases exec_decInstr_cases m s with ⟨_, h'⟩ | ⟨_, h'⟩ <;> cases h.symm.trans h'
  · exact raise_errcode_ne he.symm s
  · exact complete_errcode_ne e _

/-- Settles O30: ENC checks the shape first, and the one error of PLAN and of DEC has another code. -/
theorem encodeRejectsOtherShapes : Obligations.EncodeRejectsOtherShapes :=
  ⟨fun _ _ h1 h3 => exec_encInstr_of_unsupported (not_or.2 ⟨h1, h3⟩), fun _ _ _ h =>
    h.elim (exec_planInstr_errcode_ne (e := .unsupportedCarrierShape) (by decide))
      (exec_decInstr_errcode_ne (e := .unsupportedCarrierShape) (by decide))⟩

/-! ## Capacity 0 (R115, R200) -/

theorem Ready.planReady {i : Instr} {s : State} (h : Ready i s) : PlanReady s := by
  cases i with
  | planX16 | planP12 => exact h
  | encX16 | encP12 | decX16 | decP12 => exact h.2

theorem plan_nslots_eq_zero_iff {m : Mode} {h w : Nat} : (plan m h w).nslots = 0 ↔ h < hdivOf m ∨ w < wdivOf m := by
  rw [plan_nslots, plan_th, plan_tw, Nat.mul_eq_zero, or_iff_left three_ne_zero, Nat.mul_eq_zero,
    trim_eq_zero_iff (hdivOf_pos m), trim_eq_zero_iff (wdivOf_pos m)]

theorem planOf_cap_eq_zero_iff {m : Mode} {s : State} : (planOf m s).cap = 0 ↔ (planOf m s).nslots = 0 := by
  rw [planOf_nslots_eq, Nat.mul_eq_zero, or_iff_left]
  cases m <;> decide

/-- R115's dimensions without a group in EXACT16. -/
theorem planOf_exact16_cap_eq_zero_iff {s : State} (h : PlanReady s) :
    (planOf .exact16 s).cap = 0 ↔ s.height.toNat = 1 ∨ s.width.toNat ≤ 3 := by
  have hh : s.height.toNat ≠ 0 := fun h0 => h.1 (BitVec.eq_of_toNat_eq h0)
  rw [planOf_cap_eq_zero_iff, planOf, plan_nslots_eq_zero_iff, hdivOf, wdivOf]
  omega

/-- R115's dimensions without a group in PACKED12, which keeps every row. -/
theorem planOf_packed12_cap_eq_zero_iff {s : State} (h : PlanReady s) :
    (planOf .packed12 s).cap = 0 ↔ s.width.toNat = 1 := by
  have hh : s.height.toNat ≠ 0 := fun h0 => h.1 (BitVec.eq_of_toNat_eq h0)
  have hw : s.width.toNat ≠ 0 := fun h0 => h.2 (BitVec.eq_of_toNat_eq h0)
  rw [planOf_cap_eq_zero_iff, planOf, plan_nslots_eq_zero_iff, hdivOf, wdivOf]
  omega

theorem encWrites_eq_nil {m : Mode} {s : State} (h : (planOf m s).cap = 0) : encWrites m s = [] :=
  List.eq_nil_iff_forall_not_mem.2 fun _ hq => by
    obtain ⟨f, hf, _⟩ := mem_encWrites.1 hq
    rw [planOf_cap_eq_zero_iff.1 h] at hf
    exact Nat.not_lt_zero f hf

theorem decWrites_eq_nil {m : Mode} {s : State} (h : (planOf m s).cap = 0) : decWrites m s = [] :=
  List.eq_nil_iff_forall_not_mem.2 fun _ hq => by
    obtain ⟨g, hg, _⟩ := mem_decWrites.1 hq
    rw [h] at hg
    exact Nat.not_lt_zero g hg

/-- With nothing to write, ENC and DEC do what PLAN does (R143, R172). -/
theorem exec_of_cap_eq_zero {i : Instr} {s : State} (h : Ready i s) (hcap : (planOf (modeOf i) s).cap = 0) :
    exec i s = .next (complete (writePlan (planOf (modeOf i) s) s)) := by
  obtain ⟨m, rfl | rfl | rfl⟩ := instr_cases i
  · rw [modeOf_planInstr]
    exact exec_planInstr_of_ready (ready_planInstr.1 h)
  · rw [modeOf_encInstr] at hcap ⊢
    rw [exec_encInstr_of_ready (ready_encInstr.1 h), encoded, encWrites_eq_nil hcap]
    rfl
  · rw [modeOf_decInstr] at hcap ⊢
    rw [exec_decInstr_of_ready (ready_decInstr.1 h), decoded, decWrites_eq_nil hcap]
    rfl

/-- Settles O27: the registers hold the plan, and a plan without groups leaves nothing to write. -/
theorem zeroCapacityIsSuccess : Obligations.ZeroCapacityIsSuccess := by
  intro i s h
  obtain ⟨t, hrun, ht⟩ := exec_holdsPlan h
  have hcap : t.capacity = 0 ↔ (planOf (modeOf i) s).cap = 0 := by
    rw [← ht.capacity]; exact BitVec.toNat_inj.symm
  have hnslots : t.nslots = 0 ↔ (planOf (modeOf i) s).nslots = 0 := by
    rw [← ht.nslots]; exact BitVec.toNat_inj.symm
  refine ⟨t, hrun, ?_, ?_, fun h0 => ?_⟩
  · rw [hcap, hnslots, planOf_cap_eq_zero_iff]
  · refine hcap.trans ?_
    cases modeOf i with
    | exact16 => exact planOf_exact16_cap_eq_zero_iff h.planReady
    | packed12 => exact planOf_packed12_cap_eq_zero_iff h.planReady
  · cases hrun.symm.trans (exec_of_cap_eq_zero h (hcap.1 h0))
    exact ⟨rfl, rfl, rfl, rfl⟩

end Sys2Proof.Machine
end
